-- ==== Sys2Proof/Word.lean ====
section
/-! DEFINITION. The word (spec/00_scope.md R6, R12). A word is a signed integer, written `Int` ("a model stores each cell as one
integer", spec/20_memory.md R52); the width `W` says which integers are words and plays no other part (R81). There is no wrap-around:
arithmetic is exact and a result that is no word is a fault (spec/41_arithmetic.md R142, R143), so no bit vector is needed. -/

namespace Sys2Proof

/-- The parameter `W` of R6: a number of bits, or `W = ∞`, where every integer is a word. -/
inductive Width where
  | bits (n : Nat)
  | unbounded
deriving DecidableEq, Repr

/-- The largest memory length the width allows out of `c` (R7: "when `W` is finite it must satisfy `MEM_MAX <= WMAX - 4`"). -/
def Width.memBound : Width → Nat → Nat
  | .bits n, c => min c (2 ^ (n - 1) - 5)
  | .unbounded, c => c

end Sys2Proof
end

