-- ==== Sys2Proof/Config.lean ====
section
/-! DEFINITION. The implementation parameters of spec/00_scope.md section 3: the word width and the memory maximum. -/

namespace Sys2Proof

/-- The width of the machine: the spec's default, "The default is `W = 64`" (R6, D1).
DESIGN CHOICE (unsafe for a machine of another width): see notes/assumptions/1.md. `stepAt` and every host command take any width. -/
def Config.width : Width := .bits 64

/-- How much more than 64 words the implementer's `MEM_MAX` allows (R7: "an open parameter of the model"). It has no value, so
a statement about it holds for every one. -/
opaque Config.memSpare : Nat

/-- `MEM_MAX` (R7) at width `W`, held to `MEM_MAX <= WMAX - 4`. DESIGN CHOICE that it is at least 64, which every program of
spec/95_test_vectors.md needs (unsafe for a machine with less): see notes/assumptions/2.md. -/
def Config.memMax (W : Width) : Nat := W.memBound (64 + Config.memSpare)

end Sys2Proof
end

