-- ==== Sys2Proof/Syntax.lean ====
section
/-! DEFINITION. The decoded instruction (spec/30_encoding.md R83, R84, R86): one constructor per row of spec/opcode_table.json. -/

namespace Sys2Proof

/-- The addressing mode of a source parameter (R83). -/
inductive Mode where
  | position
  | immediate
deriving DecidableEq, Repr

/-- A decoded instruction: the mnemonic and the mode digits of its parameters (R91). A source parameter carries its mode; a
destination parameter carries the decimal digit it was written with, which no meaning reads (R88). The parameter words are not
part of it: they are read from memory while the instruction runs (R116, R117). -/
inductive Instr where
  | add (m1 m2 : Mode) (dst : Nat)
  | mul (m1 m2 : Mode) (dst : Nat)
  | read (dst : Nat)
  | write (m1 : Mode)
  | jt (m1 m2 : Mode)
  | jf (m1 m2 : Mode)
  | lt (m1 m2 : Mode) (dst : Nat)
  | eq (m1 m2 : Mode) (dst : Nat)
  | halt
deriving DecidableEq, Repr

end Sys2Proof
end

