-- ==== Sys2Proof/WellFormed.lean ====
section
/-! DEFINITION. Which instructions an encoding exists for (spec/30_encoding.md R84, R88). -/

namespace Sys2Proof

/-- A destination digit is a decimal digit: "every digit value 0 to 9 is accepted" (R88). -/
def digitOk (d : Nat) : Bool := decide (d ≤ 9)

/-- The instruction can be written down: its destination digit, where it has one, is a digit. A source mode is Position or
Immediate by its type. -/
def Instr.wellFormed : Instr → Bool
  | .add _ _ dst => digitOk dst
  | .mul _ _ dst => digitOk dst
  | .read dst => digitOk dst
  | .write _ => true
  | .jt _ _ => true
  | .jf _ _ => true
  | .lt _ _ dst => digitOk dst
  | .eq _ _ dst => digitOk dst
  | .halt => true

end Sys2Proof
end

