-- ==== Sys2Proof/Decode.lean ====
section
/-! DEFINITION. The decoder of spec/30_encoding.md (R82 to R95), total on words, and the encoder of the same tables. -/

namespace Sys2Proof

/-- Why a word is no instruction (R91). Each becomes a fault of its own name when a RUN decodes the word. -/
inductive Reject where
  /-- R92, R93: the word is negative, or its value modulo 100 is no listed opcode. -/
  | illegalOpcode
  /-- R94, R95: a source mode digit of 2 to 9, or a reserved digit that is not 0. -/
  | illegalMode
deriving DecidableEq, Repr

/-- `digit(w, k) = (w div 10^k) mod 10` (R10). -/
def digit (w k : Nat) : Nat := w / 10 ^ k % 10

/-- The digits from position 5 up, reserved in every format (R82). -/
def highDigits (w : Nat) : Nat := w / 100000

/-- The mode a source parameter's digit selects (R83); no other digit is legal there (R94). -/
def sourceMode : Nat → Option Mode
  | 0 => some .position
  | 1 => some .immediate
  | _ => none

/-- Format SSD (R84): two source digits, a destination digit of any value. -/
def decodeSSD (mk : Mode → Mode → Nat → Instr) (w : Nat) : Except Reject Instr :=
  match sourceMode (digit w 2), sourceMode (digit w 3) with
  | some m1, some m2 => if highDigits w = 0 then .ok (mk m1 m2 (digit w 4)) else .error .illegalMode
  | _, _ => .error .illegalMode

/-- Format D (R84): a destination digit of any value; `m2`, `m3` and `hi` reserved. -/
def decodeD (mk : Nat → Instr) (w : Nat) : Except Reject Instr :=
  if digit w 3 = 0 ∧ digit w 4 = 0 ∧ highDigits w = 0 then .ok (mk (digit w 2)) else .error .illegalMode

/-- Format S (R84): one source digit; `m2`, `m3` and `hi` reserved. -/
def decodeS (mk : Mode → Instr) (w : Nat) : Except Reject Instr :=
  match sourceMode (digit w 2) with
  | some m1 => if digit w 3 = 0 ∧ digit w 4 = 0 ∧ highDigits w = 0 then .ok (mk m1) else .error .illegalMode
  | none => .error .illegalMode

/-- Format SS (R84): two source digits; `m3` and `hi` reserved. -/
def decodeSS (mk : Mode → Mode → Instr) (w : Nat) : Except Reject Instr :=
  match sourceMode (digit w 2), sourceMode (digit w 3) with
  | some m1, some m2 => if digit w 4 = 0 ∧ highDigits w = 0 then .ok (mk m1 m2) else .error .illegalMode
  | _, _ => .error .illegalMode

/-- Format Z (R84): every digit above the opcode reserved. -/
def decodeZ (i : Instr) (w : Nat) : Except Reject Instr :=
  if digit w 2 = 0 ∧ digit w 3 = 0 ∧ digit w 4 = 0 ∧ highDigits w = 0 then .ok i else .error .illegalMode

/-- `Decode` of a non-negative word (R91): the opcode first, then the digits of its format. -/
def decodeNat (w : Nat) : Except Reject Instr :=
  match w % 100 with
  | 1 => decodeSSD .add w
  | 2 => decodeSSD .mul w
  | 3 => decodeD .read w
  | 4 => decodeS .write w
  | 5 => decodeSS .jt w
  | 6 => decodeSS .jf w
  | 7 => decodeSSD .lt w
  | 8 => decodeSSD .eq w
  | 99 => decodeZ .halt w
  | _ => .error .illegalOpcode

/-- `Decode(w)` (R91): "total on words"; "It reads nothing but `w`". A negative word is illegal (R92). -/
def decode (w : Int) : Except Reject Instr :=
  if w < 0 then .error .illegalOpcode else decodeNat w.toNat

/-- The opcode of R86. -/
def Instr.opcode : Instr → Nat
  | .add _ _ _ => 1
  | .mul _ _ _ => 2
  | .read _ => 3
  | .write _ => 4
  | .jt _ _ => 5
  | .jf _ _ => 6
  | .lt _ _ _ => 7
  | .eq _ _ _ => 8
  | .halt => 99

/-- The number of words an instruction occupies (R85). -/
def Instr.length : Instr → Nat
  | .add _ _ _ => 4
  | .mul _ _ _ => 4
  | .read _ => 2
  | .write _ => 2
  | .jt _ _ => 3
  | .jf _ _ => 3
  | .lt _ _ _ => 4
  | .eq _ _ _ => 4
  | .halt => 1

/-- The digit that selects a mode (R83). -/
def Mode.digit : Mode → Nat
  | .position => 0
  | .immediate => 1

/-- The word whose decimal digits are `m3 m2 m1 o o` (R82). -/
def encodeDigits (m3 m2 m1 op : Nat) : Int := ((10000 * m3 + 1000 * m2 + 100 * m1 + op : Nat) : Int)

/-- The instruction word of an instruction, from the opcode map of R86. -/
def encode : Instr → Int
  | .add m1 m2 dst => encodeDigits dst m2.digit m1.digit 1
  | .mul m1 m2 dst => encodeDigits dst m2.digit m1.digit 2
  | .read dst => encodeDigits 0 0 dst 3
  | .write m1 => encodeDigits 0 0 m1.digit 4
  | .jt m1 m2 => encodeDigits 0 m2.digit m1.digit 5
  | .jf m1 m2 => encodeDigits 0 m2.digit m1.digit 6
  | .lt m1 m2 dst => encodeDigits dst m2.digit m1.digit 7
  | .eq m1 m2 dst => encodeDigits dst m2.digit m1.digit 8
  | .halt => encodeDigits 0 0 0 99

/-- The signed 64-bit word whose two's-complement bits are the low 64 bits of `bits` (R6 at the width of Config.width).
Only the host's numbering of table words needs it (notes/assumptions/10.md): no instruction sees the bits of a word (R52). -/
def wordOfBits (bits : Nat) : Int :=
  let b : Nat := bits % 2 ^ 64
  if b < 2 ^ 63 then (b : Int) else (b : Int) - ((2 ^ 64 : Nat) : Int)

/-- Word `k` of an instruction whose bits are numbered from the first word's least significant bit, 64 bits a word;
bits from `nbits` up are 0. -/
def tableWord (nbits w k : Nat) : Int := wordOfBits (w % 2 ^ nbits / 2 ^ (64 * k))

/-- What the decoder reads from an instruction whose bits are `w`: only its first word matters (R80, R91). -/
def decodeTableWord (nbits w : Nat) : Option Instr :=
  match decode (tableWord nbits w 0) with
  | .ok i => some i
  | .error _ => none

end Sys2Proof
end

