-- ==== Sys2Proof/Machine/State.lean ====
section
/-! DEFINITION. The state of one Machine (spec/10_state.md R21): exactly eight items, and their values after reset (R34). -/

namespace Sys2Proof.Machine

/-- One memory cell: an address and the word it holds (spec/20_memory.md R52: the word is the only unit; there are no bytes). -/
abbrev Cell := Nat × Int

/-- Memory: cells by strictly rising address, none of them holding 0. An address below `memLen` that is not listed holds 0, so
every image has one form (notes/assumptions/3.md); an address from `memLen` up does not exist (R50, R53). -/
abbrev Memory := List Cell

/-- The `state` register (R26). -/
inductive ExecState where
  /-- The next RUN will attempt the instruction at the cursor. -/
  | ready
  /-- The last RUN found a READ at the cursor and an empty `input`. -/
  | waiting
  /-- A HALT was executed; terminal. -/
  | halted
  /-- A fault was raised; terminal; `fault_code` says which. -/
  | faulted
deriving DecidableEq, Repr

/-- The `fault_code` register (R29). -/
inductive FaultCode where
  | none
  | illegalOpcode
  | addressOutOfRange
  | illegalMode
  | arithmeticOverflow
deriving DecidableEq, Repr

/-- The complete state of a Machine (R21: "exactly the eight items of this table. Nothing else survives from one command to the next"). -/
structure State where
  /-- `mem` (R23) -/
  mem : Memory
  /-- `mem_len`, written `N` (R24) -/
  memLen : Nat
  /-- `cursor`, written `pc` in the spec's pseudocode (R22) -/
  cursor : Int
  /-- `state` (R26) -/
  state : ExecState
  /-- `input`, front first (R27) -/
  input : List Int
  /-- `output`, front first (R28) -/
  output : List Int
  /-- `fault_code` (R29) -/
  faultCode : FaultCode
  /-- `fault_info` (R30) -/
  faultInfo : Int
deriving DecidableEq, Repr

/-- How a step could stop without a next state: in no way. "RUN is deterministic: the state after a RUN ... [is] a function of
the state before it" (spec/40_step_and_operands.md R126), and every fault of the spec is a next state whose `state` register is
Faulted (spec/60_exceptions.md R226; notes/assumptions/7.md). So nothing raises one, and the type has no constructor: safe. -/
inductive Fault where
deriving DecidableEq, Repr

/-- Commands that have no transition. No instruction and no RUN is refused. -/
inductive Refusal where
  /-- An instruction without a meaning, raised by an arm of exec; no arm of this model does. Safe. -/
  | notModelled (mnemonic : String)
  /-- Raised by any command but LOAD before the first LOAD (R37, D22: "refused (has no transition)"). Safe. -/
  | notLoaded
  /-- Raised by LOAD of an image longer than `MEM_MAX` (spec/46_host_commands.md R193). Safe. -/
  | imageTooLong
  /-- Raised by a command with an argument outside `WMIN..WMAX` (D26: "the command has no transition"). Safe. -/
  | notAWord
  /-- Raised by a command to an instance number no Machine of the system has (R9, R235). Safe. -/
  | noSuchMachine
deriving DecidableEq, Repr

/-- What a step answers. -/
abbrev Result := Host.Outcome State Fault Refusal

/-- The machine right after reset. "The only reset is LOAD" (R34, R250); with no program placed it is LOAD of the empty image,
which the spec accepts (R193). DESIGN CHOICE of the image only (unsafe): see notes/assumptions/4.md. -/
def State.reset : State where
  mem := []
  memLen := 0
  cursor := 0
  state := .ready
  input := []
  output := []
  faultCode := .none
  faultInfo := 0

end Sys2Proof.Machine
end

