-- ==== Sys2Proof/Machine/Ops.lean ====
section
/-! DEFINITION. The named operations over memory, queues and the fault registers, and taking a fault (spec/60_exceptions.md R226). -/

namespace Sys2Proof

/-- `fits(v)` (spec/00_scope.md R11): `WMIN <= v <= WMAX`, with `WMIN = -2^(W-1)` and `WMAX = 2^(W-1) - 1` (R6); "always true
when `W = ∞`". -/
def Width.fits : Width → Int → Bool
  | .bits n, v => decide (-((2 ^ (n - 1) : Nat) : Int) ≤ v ∧ v < ((2 ^ (n - 1) : Nat) : Int))
  | .unbounded, _ => true

/-- R6: "`W` must be at least 18 so that every defined instruction word ... is representable". -/
def Width.legal : Width → Bool
  | .bits n => decide (18 ≤ n)
  | .unbounded => true

end Sys2Proof

namespace Sys2Proof.Machine

/-- The word of the cell at an address; an unlisted cell holds 0. -/
def Memory.read : Memory → Nat → Int
  | [], _ => 0
  | (b, x) :: m, a => if a = b then x else Memory.read m a

/-- Put a word into a cell and keep the canonical form: a 0 is not listed. -/
def Memory.write : Memory → Nat → Int → Memory
  | [], a, v => if v = 0 then [] else [(a, v)]
  | (b, x) :: m, a, v =>
    if a < b then if v = 0 then (b, x) :: m else (a, v) :: (b, x) :: m
    else if a = b then if v = 0 then m else (a, v) :: m
    else (b, x) :: Memory.write m a v

/-- The cells of an image from address `i` up: `mem[i] <- image[i]` (R34), a 0 being left unlisted. -/
def Memory.ofImageFrom (i : Nat) : List Int → Memory
  | [] => []
  | v :: vs => if v = 0 then Memory.ofImageFrom (i + 1) vs else (i, v) :: Memory.ofImageFrom (i + 1) vs

/-- The Machine that LOAD constructs from an image (R34). -/
def State.ofImage (image : List Int) : State where
  mem := Memory.ofImageFrom 0 image
  memLen := image.length
  cursor := 0
  state := .ready
  input := []
  output := []
  faultCode := .none
  faultInfo := 0

/-- Addresses strictly rising from `lo` up, no cell holding 0. -/
def Memory.wfFrom (lo : Nat) : Memory → Bool
  | [] => true
  | (a, v) :: m => decide (lo ≤ a) && decide (v ≠ 0) && Memory.wfFrom (a + 1) m

/-- The canonical form of memory. -/
def Memory.wf (m : Memory) : Bool := Memory.wfFrom 0 m

/-- Every listed address is below `n`. -/
def Memory.below (n : Nat) (m : Memory) : Bool := m.all fun c => decide (c.1 < n)

/-- `InRange(a)`: `0 <= a and a < N` (spec/00_scope.md R11). -/
def State.inRange (s : State) (a : Int) : Bool := decide (0 ≤ a) && decide (a < (s.memLen : Int))

/-- `mem[a]`, "meaningful only when `0 <= a < N`" (R11). -/
def State.cell (s : State) (a : Int) : Int := s.mem.read a.toNat

/-- `mem[a] <- v`, for an address in range. -/
def State.storeCell (a v : Int) (s : State) : State := { s with mem := s.mem.write a.toNat v }

/-- `MemRead(a, 1)` (spec/20_memory.md R54): the word, or the address that failed the bounds check. -/
def State.memRead (s : State) (a : Int) : Except Int Int := if s.inRange a then .ok (s.cell a) else .error a

/-- `MemWrite(a, 1, v)` (R55): the state after, or the address that failed the bounds check. -/
def State.memWrite (a v : Int) (s : State) : Except Int State := if s.inRange a then .ok (s.storeCell a v) else .error a

/-- `pc <- pc'` and `state <- st`, the last acts of a completed instruction (spec/40_step_and_operands.md R119). -/
def State.finish (pc : Int) (st : ExecState) (s : State) : State := { s with cursor := pc, state := st }

/-- `push(input, v)`. -/
def State.pushInput (v : Int) (s : State) : State := { s with input := s.input ++ [v] }

/-- `push(output, v)`. -/
def State.pushOutput (v : Int) (s : State) : State := { s with output := s.output ++ [v] }

/-- `input` with its front element removed. -/
def State.dropInput (s : State) : State := { s with input := s.input.tail }

/-- `output` with its front element removed. -/
def State.dropOutput (s : State) : State := { s with output := s.output.tail }

/-- `FaultEntry(code, info)` (spec/60_exceptions.md R226): the first fault is kept (R227). There is nothing to return to: "There
is no return-from-trap instruction and no command that clears a fault" (R227). -/
def State.faultEntry (code : FaultCode) (info : Int) (s : State) : State :=
  match s.state with
  | .faulted => s
  | _ => { s with state := .faulted, faultCode := code, faultInfo := info }

/-- `raise Fault(code, info)` (R11): abandon the command with no further state change, then fault entry. -/
def raise (code : FaultCode) (info : Int) (s : State) : Result := .next (s.faultEntry code info)

/-- Go on with a resolved value, or raise AddressOutOfRange at the address that failed (spec/20_memory.md R53). -/
def orRaise {α : Type} (s : State) (r : Except Int α) (f : α → Result) : Result :=
  match r with
  | .ok v => f v
  | .error a => raise .addressOutOfRange a s

/-- The fault that a word refused by decode raises (spec/30_encoding.md R92 to R95). -/
def rejectCode : Reject → FaultCode
  | .illegalOpcode => .illegalOpcode
  | .illegalMode => .illegalMode

/-- RUN performs a step only from Ready or Waiting (spec/40_step_and_operands.md R110). -/
def ExecState.runs : ExecState → Bool
  | .ready => true
  | .waiting => true
  | .halted => false
  | .faulted => false

/-- Fetch and decode (R112, R113): the instruction at the cursor, or the fault to raise. -/
def State.fetchDecode (s : State) : Except (FaultCode × Int) Instr :=
  match s.memRead s.cursor with
  | .error a => .error (.addressOutOfRange, a)
  | .ok w =>
    match decode w with
    | .ok i => .ok i
    | .error r => .error (rejectCode r, w)

/-- One RUN (R110, R111), given how a decoded instruction is executed: nothing in Halted or Faulted; in Ready or Waiting, fetch,
decode and execute. The two running states are "treated identically". -/
def runWith (execute : Instr → State → Result) (s : State) : Result :=
  if s.state.runs then
    match s.fetchDecode with
    | .ok i => execute i s
    | .error (code, info) => raise code info s
  else .next s

/-- `bits[1:0]` of the `state` register (spec/10_state.md R26). -/
def ExecState.code : ExecState → BitVec 2
  | .ready => 0b00
  | .waiting => 0b01
  | .halted => 0b10
  | .faulted => 0b11

/-- `bits[2:0]` of the `fault_code` register (R29). -/
def FaultCode.code : FaultCode → BitVec 3
  | .none => 0b000
  | .illegalOpcode => 0b001
  | .addressOutOfRange => 0b010
  | .illegalMode => 0b011
  | .arithmeticOverflow => 0b100

/-- The cursor at which `withFetchWord` places an instruction: where the next fetch is, or 0 for a negative cursor. -/
def State.fetchAddress (s : State) : Nat := s.cursor.toNat

/-- A Machine that the next RUN will step: a Halted or Faulted one made Ready with no fault, as LOAD would leave it (R34). -/
def State.readied (s : State) : State :=
  if s.state.runs then s else { s with state := .ready, faultCode := .none, faultInfo := 0 }

/-- Place four words at the fetch address, memory being as long as they need. -/
def State.placeWords (w0 w1 w2 w3 : Int) (s : State) : State :=
  let a := s.fetchAddress
  { s.readied with
    mem := (((s.mem.write a w0).write (a + 1) w1).write (a + 2) w2).write (a + 3) w3
    memLen := max s.memLen (a + 4)
    cursor := (a : Int) }

end Sys2Proof.Machine
end

