-- ==== Sys2Proof/Machine/Operands.lean ====
section
/-! DEFINITION. The operand resolver (spec/40_step_and_operands.md R114 to R117): eager, in order, before anything is written. -/

namespace Sys2Proof.Machine

/-- `ResolveSrc(k, m)` (R116): the value of source parameter `k`, or the address that failed. -/
def State.resolveSrc (k : Nat) (m : Mode) (s : State) : Except Int Int :=
  match s.memRead (s.cursor + k) with
  | .error a => .error a
  | .ok p =>
    match m with
    | .immediate => .ok p
    | .position => s.memRead p

/-- `ResolveDst(k)` (R117): the address that destination parameter `k` names, already checked, or the address that failed. The
mode digit is not an argument (spec/30_encoding.md R88). -/
def State.resolveDst (k : Nat) (s : State) : Except Int Int :=
  match s.memRead (s.cursor + k) with
  | .error a => .error a
  | .ok d => if s.inRange d then .ok d else .error d

/-- The parameters of format SSD, in the order of R114: two source values and a destination address. -/
def withSSD (m1 m2 : Mode) (s : State) (f : Int → Int → Int → Result) : Result :=
  orRaise s (s.resolveSrc 1 m1) fun a =>
    orRaise s (s.resolveSrc 2 m2) fun b =>
      orRaise s (s.resolveDst 3) fun d => f a b d

/-- The parameters of format SS: two source values. -/
def withSS (m1 m2 : Mode) (s : State) (f : Int → Int → Result) : Result :=
  orRaise s (s.resolveSrc 1 m1) fun a =>
    orRaise s (s.resolveSrc 2 m2) fun b => f a b

/-- The parameter of format S: one source value. -/
def withS (m1 : Mode) (s : State) (f : Int → Result) : Result := orRaise s (s.resolveSrc 1 m1) f

/-- The parameter of format D: one destination address. -/
def withD (s : State) (f : Int → Result) : Result := orRaise s (s.resolveDst 1) f

/-- `MemWrite(d, 1, r); pc <- pc + 4; state <- Ready`, the common end of format SSD (R119). -/
def State.storeAndAdvance (d r : Int) (s : State) : State := (s.storeCell d r).finish (s.cursor + 4) .ready

end Sys2Proof.Machine
end

