-- ==== Sys2Proof/Machine/Flags.lean ====
section
/-! DEFINITION. There are no flags (spec/10_state.md R31): what takes their place is a truth value in a memory word, the test of a
word against zero, and the overflow check of ADD and MUL. -/

namespace Sys2Proof.Machine

/-- The truth values of the comparisons: "exactly the words 1 (true) and 0 (false)" (spec/44_compare.md R172). -/
def truthWord (b : Bool) : Int := if b then 1 else 0

/-- "\"True\" is any non-zero word, negative values included" (spec/43_branch.md R160). -/
def wordIsTrue (a : Int) : Bool := decide (a ≠ 0)

/-- The end of ADD and MUL (spec/41_arithmetic.md R142): the exact result is stored if it is a word of width `W`; if not,
ArithmeticOverflow is raised with the instruction word `w` and nothing is written. -/
def storeExact (W : Width) (w r d : Int) (s : State) : Result :=
  if W.fits r then .next (s.storeAndAdvance d r) else raise .arithmeticOverflow w s

end Sys2Proof.Machine
end

