-- ==== Sys2Proof/Machine/Arithmetic.lean ====
section
/-! DEFINITION. ADD and MUL (spec/41_arithmetic.md R140 to R143). -/

namespace Sys2Proof.Machine

/-- `Exec_ADD` at width `W` (R140): the exact integer sum. -/
def addAt (W : Width) (m1 m2 : Mode) (dst : Nat) (s : State) : Result :=
  withSSD m1 m2 s fun a b d => storeExact W (encode (.add m1 m2 dst)) (a + b) d s

/-- `Exec_MUL` at width `W` (R141): the exact integer product. -/
def mulAt (W : Width) (m1 m2 : Mode) (dst : Nat) (s : State) : Result :=
  withSSD m1 m2 s fun a b d => storeExact W (encode (.mul m1 m2 dst)) (a * b) d s

/-- ADD (R140). The instruction word `w` of a fault is the one decoded (notes/assumptions/6.md). -/
def execAdd (m1 m2 : Mode) (dst : Nat) (s : State) : Result := addAt Config.width m1 m2 dst s

/-- MUL (R141). -/
def execMul (m1 m2 : Mode) (dst : Nat) (s : State) : Result := mulAt Config.width m1 m2 dst s

end Sys2Proof.Machine
end

