-- ==== Sys2Proof/Machine/Branch.lean ====
section
/-! DEFINITION. JT and JF (spec/43_branch.md R160 to R163). -/

namespace Sys2Proof.Machine

/-- Go to the absolute target `b`, unchecked (R163), or past the three words of the jump. -/
def jumpIf (taken : Bool) (b : Int) (s : State) : State := s.finish (if taken then b else s.cursor + 3) .ready

/-- JT (R160). Both parameters are resolved even when the jump is not taken (R114). -/
def execJt (m1 m2 : Mode) (s : State) : Result := withSS m1 m2 s fun a b => .next (jumpIf (wordIsTrue a) b s)

/-- JF (R161). -/
def execJf (m1 m2 : Mode) (s : State) : Result := withSS m1 m2 s fun a b => .next (jumpIf (!wordIsTrue a) b s)

end Sys2Proof.Machine
end

