-- ==== Sys2Proof/Machine/Compare.lean ====
section
/-! DEFINITION. LT and EQ (spec/44_compare.md R170 to R172). -/

namespace Sys2Proof.Machine

/-- LT (R170): "signed comparison of two words". -/
def execLt (m1 m2 : Mode) (_dst : Nat) (s : State) : Result :=
  withSSD m1 m2 s fun a b d => .next (s.storeAndAdvance d (truthWord (decide (a < b))))

/-- EQ (R171): equality of the two words as integers. -/
def execEq (m1 m2 : Mode) (_dst : Nat) (s : State) : Result :=
  withSSD m1 m2 s fun a b d => .next (s.storeAndAdvance d (truthWord (decide (a = b))))

end Sys2Proof.Machine
end

