-- ==== Sys2Proof/Machine/Halt.lean ====
section
/-! DEFINITION. HALT (spec/45_halt.md R180). -/

namespace Sys2Proof.Machine

/-- HALT (R180): `state <- Halted`; the cursor is not advanced and nothing else changes. -/
def execHalt (s : State) : Result := .next (s.finish s.cursor .halted)

end Sys2Proof.Machine
end

