-- ==== Sys2Proof/Machine/InputOutput.lean ====
section
/-! DEFINITION. READ and WRITE (spec/42_io.md R150 to R152). -/

namespace Sys2Proof.Machine

/-- `Exec_READ(d)` (R150): the front of `input` goes to `mem[d]`; with `input` empty only `state` changes, to Waiting. -/
def readInto (d : Int) (s : State) : State :=
  match s.input with
  | [] => s.finish s.cursor .waiting
  | v :: _ => (s.dropInput.storeCell d v).finish (s.cursor + 2) .ready

/-- READ (R150). The destination is resolved before the queue is examined (R114, D13); its digit is ignored (R88). -/
def execRead (_dst : Nat) (s : State) : Result := withD s fun d => .next (readInto d s)

/-- WRITE (R151): append the value at the back of `output`. -/
def execWrite (m1 : Mode) (s : State) : Result :=
  withS m1 s fun a => .next ((s.pushOutput a).finish (s.cursor + 2) .ready)

end Sys2Proof.Machine
end

