-- ==== Sys2Proof/Machine/Dispatch.lean ====
section
/-! DEFINITION. exec: one arm per row of spec/opcode_table.json (spec/40_step_and_operands.md R111). -/

namespace Sys2Proof.Machine

/-- Execute a decoded instruction (R111). -/
def exec (i : Instr) (s : State) : Host.Outcome State Fault Refusal :=
  match i with
  | .add m1 m2 dst => Sys2Proof.Machine.execAdd m1 m2 dst s
  | .mul m1 m2 dst => Sys2Proof.Machine.execMul m1 m2 dst s
  | .read dst => Sys2Proof.Machine.execRead dst s
  | .write m1 => Sys2Proof.Machine.execWrite m1 s
  | .jt m1 m2 => Sys2Proof.Machine.execJt m1 m2 s
  | .jf m1 m2 => Sys2Proof.Machine.execJf m1 m2 s
  | .lt m1 m2 dst => Sys2Proof.Machine.execLt m1 m2 dst s
  | .eq m1 m2 dst => Sys2Proof.Machine.execEq m1 m2 dst s
  | .halt => Sys2Proof.Machine.execHalt s

end Sys2Proof.Machine
end

