-- ==== Sys2Proof/Machine/Step.lean ====
section
/-! DEFINITION. One RUN (spec/40_step_and_operands.md R110, R111) and the host's way of placing an instruction to run. -/

namespace Sys2Proof.Machine

/-- RUN (R110, R111): one RUN with the meanings of exec. -/
def step (s : State) : Host.Outcome State Fault Refusal := runWith exec s

/-- `s` with the instruction whose bits are `w` (numbered as `decodeTableWord` numbers them) where the next step fetches: its
words at the cursor, memory long enough to hold them, the cursor not negative, and the Machine able to run. It stands for the
LOAD that places a program (notes/assumptions/11.md). -/
def State.withFetchWord (s : State) (nbits w : Nat) : State :=
  s.placeWords (tableWord nbits w 0) (tableWord nbits w 1) (tableWord nbits w 2) (tableWord nbits w 3)

end Sys2Proof.Machine
end

