-- ==== Sys2Proof/Laws/State.lean ====
section
/-! SUPPORT. One lemma per field per update of State, so that no proof unfolds a record update. -/

namespace Sys2Proof.Machine

/-- An image of at most 64 words is never too long, at any width the spec allows. -/
theorem le_memMax {W : Width} (hW : W.legal = true) {n : Nat} (h : n ≤ 64) : n ≤ Config.memMax W := by
  cases W with
  | bits b =>
    have hb : 18 ≤ b := by simpa [Width.legal] using hW
    have : 2 ^ 17 ≤ 2 ^ (b - 1) := Nat.pow_le_pow_right (by decide) (by omega)
    simp only [Config.memMax, Width.memBound]
    omega
  | unbounded =>
    simp only [Config.memMax, Width.memBound]
    omega

/-- `MEM_MAX <= WMAX - 4` (spec/00_scope.md R7) at every width: four words past an address below it there is still a word. -/
theorem fits_of_lt_memMax {W : Width} {a k : Nat} (ha : a < Config.memMax W) (hk : k ≤ 4) : W.fits ((a : Int) + k) = true := by
  cases W with
  | bits b =>
    simp only [Config.memMax, Width.memBound] at ha
    simp only [Width.fits, decide_eq_true_eq]
    omega
  | unbounded => rfl

/-- 0 is a word of every width. -/
@[simp] theorem fits_zero (W : Width) : W.fits 0 = true := by
  cases W with
  | bits b =>
    have : 0 < 2 ^ (b - 1) := Nat.pow_pos (by decide)
    simp only [Width.fits, decide_eq_true_eq]
    omega
  | unbounded => rfl

/-- `fits` at the width of the machine. -/
theorem fits_iff {v : Int} : Config.width.fits v = true ↔ -(2 ^ 63) ≤ v ∧ v < 2 ^ 63 := by
  simp [Config.width, Width.fits]

@[simp] theorem State.storeCell_mem (a v : Int) (s : State) :
    (s.storeCell a v).mem = s.mem.write a.toNat v := rfl
@[simp] theorem State.storeCell_memLen (a v : Int) (s : State) :
    (s.storeCell a v).memLen = s.memLen := rfl
@[simp] theorem State.storeCell_cursor (a v : Int) (s : State) :
    (s.storeCell a v).cursor = s.cursor := rfl
@[simp] theorem State.storeCell_state (a v : Int) (s : State) :
    (s.storeCell a v).state = s.state := rfl
@[simp] theorem State.storeCell_input (a v : Int) (s : State) :
    (s.storeCell a v).input = s.input := rfl
@[simp] theorem State.storeCell_output (a v : Int) (s : State) :
    (s.storeCell a v).output = s.output := rfl
@[simp] theorem State.storeCell_faultCode (a v : Int) (s : State) :
    (s.storeCell a v).faultCode = s.faultCode := rfl
@[simp] theorem State.storeCell_faultInfo (a v : Int) (s : State) :
    (s.storeCell a v).faultInfo = s.faultInfo := rfl

@[simp] theorem State.finish_mem (pc : Int) (st : ExecState) (s : State) :
    (s.finish pc st).mem = s.mem := rfl
@[simp] theorem State.finish_memLen (pc : Int) (st : ExecState) (s : State) :
    (s.finish pc st).memLen = s.memLen := rfl
@[simp] theorem State.finish_cursor (pc : Int) (st : ExecState) (s : State) :
    (s.finish pc st).cursor = pc := rfl
@[simp] theorem State.finish_state (pc : Int) (st : ExecState) (s : State) :
    (s.finish pc st).state = st := rfl
@[simp] theorem State.finish_input (pc : Int) (st : ExecState) (s : State) :
    (s.finish pc st).input = s.input := rfl
@[simp] theorem State.finish_output (pc : Int) (st : ExecState) (s : State) :
    (s.finish pc st).output = s.output := rfl
@[simp] theorem State.finish_faultCode (pc : Int) (st : ExecState) (s : State) :
    (s.finish pc st).faultCode = s.faultCode := rfl
@[simp] theorem State.finish_faultInfo (pc : Int) (st : ExecState) (s : State) :
    (s.finish pc st).faultInfo = s.faultInfo := rfl

@[simp] theorem State.pushInput_mem (v : Int) (s : State) :
    (s.pushInput v).mem = s.mem := rfl
@[simp] theorem State.pushInput_memLen (v : Int) (s : State) :
    (s.pushInput v).memLen = s.memLen := rfl
@[simp] theorem State.pushInput_cursor (v : Int) (s : State) :
    (s.pushInput v).cursor = s.cursor := rfl
@[simp] theorem State.pushInput_state (v : Int) (s : State) :
    (s.pushInput v).state = s.state := rfl
@[simp] theorem State.pushInput_input (v : Int) (s : State) :
    (s.pushInput v).input = s.input ++ [v] := rfl
@[simp] theorem State.pushInput_output (v : Int) (s : State) :
    (s.pushInput v).output = s.output := rfl
@[simp] theorem State.pushInput_faultCode (v : Int) (s : State) :
    (s.pushInput v).faultCode = s.faultCode := rfl
@[simp] theorem State.pushInput_faultInfo (v : Int) (s : State) :
    (s.pushInput v).faultInfo = s.faultInfo := rfl

@[simp] theorem State.pushOutput_mem (v : Int) (s : State) :
    (s.pushOutput v).mem = s.mem := rfl
@[simp] theorem State.pushOutput_memLen (v : Int) (s : State) :
    (s.pushOutput v).memLen = s.memLen := rfl
@[simp] theorem State.pushOutput_cursor (v : Int) (s : State) :
    (s.pushOutput v).cursor = s.cursor := rfl
@[simp] theorem State.pushOutput_state (v : Int) (s : State) :
    (s.pushOutput v).state = s.state := rfl
@[simp] theorem State.pushOutput_input (v : Int) (s : State) :
    (s.pushOutput v).input = s.input := rfl
@[simp] theorem State.pushOutput_output (v : Int) (s : State) :
    (s.pushOutput v).output = s.output ++ [v] := rfl
@[simp] theorem State.pushOutput_faultCode (v : Int) (s : State) :
    (s.pushOutput v).faultCode = s.faultCode := rfl
@[simp] theorem State.pushOutput_faultInfo (v : Int) (s : State) :
    (s.pushOutput v).faultInfo = s.faultInfo := rfl

@[simp] theorem State.dropInput_mem (s : State) :
    (s.dropInput).mem = s.mem := rfl
@[simp] theorem State.dropInput_memLen (s : State) :
    (s.dropInput).memLen = s.memLen := rfl
@[simp] theorem State.dropInput_cursor (s : State) :
    (s.dropInput).cursor = s.cursor := rfl
@[simp] theorem State.dropInput_state (s : State) :
    (s.dropInput).state = s.state := rfl
@[simp] theorem State.dropInput_input (s : State) :
    (s.dropInput).input = s.input.tail := rfl
@[simp] theorem State.dropInput_output (s : State) :
    (s.dropInput).output = s.output := rfl
@[simp] theorem State.dropInput_faultCode (s : State) :
    (s.dropInput).faultCode = s.faultCode := rfl
@[simp] theorem State.dropInput_faultInfo (s : State) :
    (s.dropInput).faultInfo = s.faultInfo := rfl

@[simp] theorem State.dropOutput_mem (s : State) :
    (s.dropOutput).mem = s.mem := rfl
@[simp] theorem State.dropOutput_memLen (s : State) :
    (s.dropOutput).memLen = s.memLen := rfl
@[simp] theorem State.dropOutput_cursor (s : State) :
    (s.dropOutput).cursor = s.cursor := rfl
@[simp] theorem State.dropOutput_state (s : State) :
    (s.dropOutput).state = s.state := rfl
@[simp] theorem State.dropOutput_input (s : State) :
    (s.dropOutput).input = s.input := rfl
@[simp] theorem State.dropOutput_output (s : State) :
    (s.dropOutput).output = s.output.tail := rfl
@[simp] theorem State.dropOutput_faultCode (s : State) :
    (s.dropOutput).faultCode = s.faultCode := rfl
@[simp] theorem State.dropOutput_faultInfo (s : State) :
    (s.dropOutput).faultInfo = s.faultInfo := rfl

@[simp] theorem State.storeAndAdvance_mem (d r : Int) (s : State) :
    (s.storeAndAdvance d r).mem = s.mem.write d.toNat r := rfl
@[simp] theorem State.storeAndAdvance_memLen (d r : Int) (s : State) :
    (s.storeAndAdvance d r).memLen = s.memLen := rfl
@[simp] theorem State.storeAndAdvance_cursor (d r : Int) (s : State) :
    (s.storeAndAdvance d r).cursor = s.cursor + 4 := rfl
@[simp] theorem State.storeAndAdvance_state (d r : Int) (s : State) :
    (s.storeAndAdvance d r).state = .ready := rfl
@[simp] theorem State.storeAndAdvance_input (d r : Int) (s : State) :
    (s.storeAndAdvance d r).input = s.input := rfl
@[simp] theorem State.storeAndAdvance_output (d r : Int) (s : State) :
    (s.storeAndAdvance d r).output = s.output := rfl
@[simp] theorem State.storeAndAdvance_faultCode (d r : Int) (s : State) :
    (s.storeAndAdvance d r).faultCode = s.faultCode := rfl
@[simp] theorem State.storeAndAdvance_faultInfo (d r : Int) (s : State) :
    (s.storeAndAdvance d r).faultInfo = s.faultInfo := rfl

@[simp] theorem State.faultEntry_mem (c : FaultCode) (x : Int) (s : State) :
    (s.faultEntry c x).mem = s.mem := by
  unfold State.faultEntry
  split <;> rfl
@[simp] theorem State.faultEntry_memLen (c : FaultCode) (x : Int) (s : State) :
    (s.faultEntry c x).memLen = s.memLen := by
  unfold State.faultEntry
  split <;> rfl
@[simp] theorem State.faultEntry_cursor (c : FaultCode) (x : Int) (s : State) :
    (s.faultEntry c x).cursor = s.cursor := by
  unfold State.faultEntry
  split <;> rfl
@[simp] theorem State.faultEntry_input (c : FaultCode) (x : Int) (s : State) :
    (s.faultEntry c x).input = s.input := by
  unfold State.faultEntry
  split <;> rfl
@[simp] theorem State.faultEntry_output (c : FaultCode) (x : Int) (s : State) :
    (s.faultEntry c x).output = s.output := by
  unfold State.faultEntry
  split <;> rfl

@[simp] theorem State.faultEntry_state (c : FaultCode) (x : Int) (s : State) :
    (s.faultEntry c x).state = .faulted := by
  unfold State.faultEntry
  split
  · assumption
  · rfl

/-- Fault entry into a Faulted Machine changes nothing. -/
theorem State.faultEntry_of_faulted {s : State} (h : s.state = .faulted) (c : FaultCode) (x : Int) :
    s.faultEntry c x = s := by
  simp [State.faultEntry, h]

/-- Fault entry into any other Machine writes `state` and the fault registers. -/
theorem State.faultEntry_of_not_faulted {s : State} (h : s.state ≠ .faulted) (c : FaultCode) (x : Int) :
    s.faultEntry c x = { s with state := .faulted, faultCode := c, faultInfo := x } := by
  unfold State.faultEntry
  split
  · contradiction
  · rfl

end Sys2Proof.Machine
end

