-- ==== Sys2Proof/Laws/Memory.lean ====
section
/-! SUPPORT. The laws of memory: a write is seen where it was made and nowhere else, and every operation keeps the canonical form. -/

namespace Sys2Proof.Machine

/-- A cell below the first listed address holds 0. -/
theorem Memory.read_of_wfFrom {m : Memory} {lo a : Nat} (h : Memory.wfFrom lo m = true) (ha : a < lo) :
    Memory.read m a = 0 := by
  induction m generalizing lo with
  | nil => rfl
  | cons c m ih =>
    obtain ⟨b, x⟩ := c
    simp only [Memory.wfFrom, Bool.and_eq_true, decide_eq_true_eq] at h
    have hb : a ≠ b := by omega
    simpa [Memory.read, hb] using ih h.2 (by omega)

/-- A write is seen at the address written. -/
theorem Memory.read_write_self {m : Memory} {lo : Nat} (h : Memory.wfFrom lo m = true) (a : Nat) (v : Int) :
    Memory.read (Memory.write m a v) a = v := by
  induction m generalizing lo with
  | nil => by_cases hv : v = 0 <;> simp [Memory.write, Memory.read, hv]
  | cons c m ih =>
    obtain ⟨b, x⟩ := c
    simp only [Memory.wfFrom, Bool.and_eq_true, decide_eq_true_eq] at h
    rcases Nat.lt_trichotomy a b with hab | hab | hab
    · by_cases hv : v = 0
      · have := Memory.read_of_wfFrom h.2 (a := a) (by omega)
        simp [Memory.write, Memory.read, hab, hv, hab.ne, this]
      · simp [Memory.write, Memory.read, hab, hv]
    · subst hab
      by_cases hv : v = 0
      · simpa [Memory.write, hv] using Memory.read_of_wfFrom h.2 (a := a) (by omega)
      · simp [Memory.write, Memory.read, hv]
    · simpa [Memory.write, Memory.read, hab.ne', Nat.lt_asymm hab] using ih h.2

/-- A write leaves every other address alone. -/
theorem Memory.read_write_other (m : Memory) {a a' : Nat} (v : Int) (h : a' ≠ a) :
    Memory.read (Memory.write m a v) a' = Memory.read m a' := by
  induction m with
  | nil => by_cases hv : v = 0 <;> simp [Memory.write, Memory.read, hv, h]
  | cons c m ih =>
    obtain ⟨b, x⟩ := c
    by_cases hab : a < b
    · by_cases hv : v = 0 <;> simp [Memory.write, Memory.read, hab, hv, h]
    · by_cases hb : a = b
      · subst hb
        by_cases hv : v = 0 <;> simp [Memory.write, Memory.read, hv, h]
      · simp [Memory.write, Memory.read, hab, hb, ih]

theorem Memory.wfFrom_mono {m : Memory} {lo lo' : Nat} (h : Memory.wfFrom lo m = true) (hle : lo' ≤ lo) :
    Memory.wfFrom lo' m = true := by
  cases m with
  | nil => rfl
  | cons c m =>
    simp only [Memory.wfFrom, Bool.and_eq_true, decide_eq_true_eq] at h ⊢
    exact ⟨⟨by omega, h.1.2⟩, h.2⟩

/-- A write at or above `lo` keeps the canonical form from `lo` up. -/
theorem Memory.write_wfFrom {m : Memory} {lo a : Nat} (h : Memory.wfFrom lo m = true) (ha : lo ≤ a) (v : Int) :
    Memory.wfFrom lo (Memory.write m a v) = true := by
  induction m generalizing lo with
  | nil => by_cases hv : v = 0 <;> simp [Memory.write, Memory.wfFrom, hv, ha]
  | cons c m ih =>
    obtain ⟨b, x⟩ := c
    have hc := h
    simp only [Memory.wfFrom, Bool.and_eq_true, decide_eq_true_eq] at h
    rcases Nat.lt_trichotomy a b with hab | hab | hab
    · by_cases hv : v = 0
      · simpa [Memory.write, hab, hv] using hc
      · have : a + 1 ≤ b := hab
        simp [Memory.write, Memory.wfFrom, hab, hv, ha, h.1.2, h.2, this]
    · subst hab
      by_cases hv : v = 0
      · simpa [Memory.write, hv] using Memory.wfFrom_mono h.2 (by omega)
      · simp [Memory.write, Memory.wfFrom, hv, ha, h.2]
    · simpa [Memory.write, Memory.wfFrom, hab.ne', Nat.lt_asymm hab, h.1.1, h.1.2] using ih h.2 hab

/-- A write keeps the canonical form. -/
theorem Memory.write_wf {m : Memory} (h : m.wf = true) (a : Nat) (v : Int) : (m.write a v).wf = true :=
  Memory.write_wfFrom h (Nat.zero_le a) v

/-- What a write may list: what was listed, and the cell written. -/
theorem Memory.mem_write {m : Memory} {a : Nat} {v : Int} {c : Cell} (h : c ∈ m.write a v) :
    c ∈ m ∨ c = (a, v) := by
  induction m with
  | nil => by_cases hv : v = 0 <;> simp_all [Memory.write]
  | cons d m ih =>
    obtain ⟨b, x⟩ := d
    simp only [Memory.write] at h
    split at h
    · split at h
      · exact .inl h
      · rcases List.mem_cons.1 h with h | h
        · exact .inr h
        · exact .inl h
    · split at h
      · split at h
        · exact .inl (List.mem_cons_of_mem _ h)
        · rcases List.mem_cons.1 h with h | h
          · exact .inr h
          · exact .inl (List.mem_cons_of_mem _ h)
      · rcases List.mem_cons.1 h with h | h
        · exact .inl (h ▸ List.mem_cons_self)
        · exact (ih h).imp (List.mem_cons_of_mem _) id

/-- A write below `n` lists nothing from `n` up. -/
theorem Memory.write_below {m : Memory} {n a : Nat} (h : m.below n = true) (ha : a < n) (v : Int) :
    (m.write a v).below n = true := by
  simp only [Memory.below, List.all_eq_true, decide_eq_true_eq] at h ⊢
  intro c hc
  rcases Memory.mem_write hc with hc | rfl
  · exact h c hc
  · exact ha

/-- What a listed cell reads as. -/
theorem Memory.read_mem_or_zero (m : Memory) (a : Nat) : (a, m.read a) ∈ m ∨ m.read a = 0 := by
  induction m with
  | nil => exact .inr rfl
  | cons c m ih =>
    obtain ⟨b, x⟩ := c
    by_cases h : a = b
    · subst h
      simp [Memory.read]
    · simp only [Memory.read, h, if_false]
      exact ih.imp (List.mem_cons_of_mem _) id

/-- The memory of an image is canonical. -/
theorem Memory.ofImageFrom_wf (i : Nat) (image : List Int) :
    Memory.wfFrom i (Memory.ofImageFrom i image) = true := by
  induction image generalizing i with
  | nil => rfl
  | cons v vs ih =>
    by_cases hv : v = 0
    · simpa [Memory.ofImageFrom, hv] using Memory.wfFrom_mono (ih (i + 1)) (Nat.le_succ i)
    · simpa [Memory.ofImageFrom, Memory.wfFrom, hv] using ih (i + 1)

/-- Cell `i + k` of an image placed from `i` up holds its word `k`. -/
theorem Memory.read_ofImageFrom (i k : Nat) (image : List Int) :
    Memory.read (Memory.ofImageFrom i image) (i + k) = image.getD k 0 := by
  induction image generalizing i k with
  | nil => simp [Memory.ofImageFrom, Memory.read]
  | cons v vs ih =>
    cases k with
    | zero =>
      by_cases hv : v = 0
      · simpa [Memory.ofImageFrom, hv] using
          Memory.read_of_wfFrom (Memory.ofImageFrom_wf (i + 1) vs) (Nat.lt_succ_self i)
      · simp [Memory.ofImageFrom, Memory.read, hv]
    | succ k =>
      have hk := ih (i + 1) k
      rw [show i + 1 + k = i + (k + 1) by omega] at hk
      by_cases hv : v = 0
      · simpa [Memory.ofImageFrom, hv] using hk
      · simpa [Memory.ofImageFrom, Memory.read, hv] using hk

/-- What the memory of an image lists: words of the image, at addresses below its end. -/
theorem Memory.mem_ofImageFrom {i : Nat} {image : List Int} {c : Cell} (h : c ∈ Memory.ofImageFrom i image) :
    c.1 < i + image.length ∧ c.2 ∈ image := by
  induction image generalizing i with
  | nil => simp [Memory.ofImageFrom] at h
  | cons v vs ih =>
    have step (h : c ∈ Memory.ofImageFrom (i + 1) vs) : c.1 < i + (v :: vs).length ∧ c.2 ∈ v :: vs := by
      have := ih h
      exact ⟨by simp only [List.length_cons]; omega, List.mem_cons_of_mem _ this.2⟩
    by_cases hv : v = 0
    · rw [Memory.ofImageFrom, if_pos hv] at h
      exact step h
    · rw [Memory.ofImageFrom, if_neg hv] at h
      rcases List.mem_cons.1 h with rfl | h
      · exact ⟨by simp, by simp⟩
      · exact step h

/-- Reset memory is canonical. -/
theorem State.reset_mem_wf : State.reset.mem.wf = true := rfl

end Sys2Proof.Machine
end

