-- ==== Sys2Proof/Machine/Widths.lean ====
section
/-! DEFINITION. The machine at any word width (spec/00_scope.md R6: "`W` is a parameter of the model", "The model may also take
`W = ∞`"). Only the overflow check of ADD and MUL depends on the width. -/

namespace Sys2Proof.Machine

/-- `exec` at width `W`. -/
def execAt (W : Width) (i : Instr) (s : State) : Result :=
  match i with
  | .add m1 m2 dst => addAt W m1 m2 dst s
  | .mul m1 m2 dst => mulAt W m1 m2 dst s
  | .read dst => execRead dst s
  | .write m1 => execWrite m1 s
  | .jt m1 m2 => execJt m1 m2 s
  | .jf m1 m2 => execJf m1 m2 s
  | .lt m1 m2 dst => execLt m1 m2 dst s
  | .eq m1 m2 dst => execEq m1 m2 dst s
  | .halt => execHalt s

/-- RUN at width `W`. -/
def stepAt (W : Width) (s : State) : Result := runWith (execAt W) s

end Sys2Proof.Machine
end

