-- ==== Sys2Proof/Laws/Ops.lean ====
section
/-! SUPPORT. One lemma per shared operation that says everything it can do. -/

namespace Sys2Proof.Machine

theorem State.inRange_iff {s : State} {a : Int} : s.inRange a = true ↔ 0 ≤ a ∧ a < (s.memLen : Int) := by
  simp [State.inRange]

/-- R25: from a cursor in range, the cursor and every parameter word's address are words of the width. -/
theorem State.cursor_add_fits {W : Width} {s : State} (hlen : s.memLen ≤ Config.memMax W) (hi : s.inRange s.cursor = true)
    {k : Nat} (hk : k ≤ 4) : W.fits (s.cursor + k) = true := by
  obtain ⟨h0, hN⟩ := State.inRange_iff.1 hi
  obtain ⟨a, ha⟩ := Int.eq_ofNat_of_zero_le h0
  rw [ha] at hN ⊢
  exact fits_of_lt_memMax (by omega) hk

@[simp] theorem State.inRange_storeCell (a v : Int) (s : State) (x : Int) :
    (s.storeCell a v).inRange x = s.inRange x := rfl
@[simp] theorem State.inRange_finish (s : State) (pc : Int) (st : ExecState) (x : Int) :
    (s.finish pc st).inRange x = s.inRange x := rfl
@[simp] theorem State.inRange_dropInput (s : State) (x : Int) : s.dropInput.inRange x = s.inRange x := rfl
@[simp] theorem State.inRange_faultEntry (s : State) (c : FaultCode) (y x : Int) :
    (s.faultEntry c y).inRange x = s.inRange x := by
  simp [State.inRange]

theorem State.memRead_eq_ok {s : State} {a v : Int} : s.memRead a = .ok v ↔ s.inRange a = true ∧ s.cell a = v := by
  cases h : s.inRange a <;> simp [State.memRead, h]

theorem State.memRead_eq_error {s : State} {a x : Int} : s.memRead a = .error x ↔ s.inRange a = false ∧ a = x := by
  cases h : s.inRange a <;> simp [State.memRead, h]

/-- Two addresses in range that name one cell are the same address. -/
theorem toNat_ne_of_ne {x d : Int} (hx : 0 ≤ x) (hd : 0 ≤ d) (h : x ≠ d) : x.toNat ≠ d.toNat := by omega

/-- A store leaves every other address reading as before, whatever form memory has. -/
theorem State.memRead_storeCell_other {s : State} {d x : Int} (hd : 0 ≤ d) (v : Int) (h : x ≠ d) :
    (s.storeCell d v).memRead x = s.memRead x := by
  cases hr : s.inRange x with
  | false => simp [State.memRead, hr]
  | true =>
    have hne := toNat_ne_of_ne (State.inRange_iff.1 hr).1 hd h
    simp [State.memRead, State.cell, hr, Memory.read_write_other s.mem v hne]

/-- Reading after a store: the word stored at its address, what was there before everywhere else. -/
theorem State.memRead_storeCell {s : State} {d : Int} (hwf : s.mem.wf = true) (hd : s.inRange d = true) (v x : Int) :
    (s.storeCell d v).memRead x = if x = d then .ok v else s.memRead x := by
  split
  · subst x
    simp [State.memRead, State.cell, hd, Memory.read_write_self hwf]
  · exact State.memRead_storeCell_other (State.inRange_iff.1 hd).1 v ‹_›

@[simp] theorem State.memRead_finish (s : State) (pc : Int) (st : ExecState) (x : Int) :
    (s.finish pc st).memRead x = s.memRead x := rfl
@[simp] theorem State.memRead_pushInput (s : State) (v x : Int) : (s.pushInput v).memRead x = s.memRead x := rfl
@[simp] theorem State.memRead_pushOutput (s : State) (v x : Int) : (s.pushOutput v).memRead x = s.memRead x := rfl
@[simp] theorem State.memRead_dropInput (s : State) (x : Int) : s.dropInput.memRead x = s.memRead x := rfl
@[simp] theorem State.memRead_dropOutput (s : State) (x : Int) : s.dropOutput.memRead x = s.memRead x := rfl

@[simp] theorem State.memRead_faultEntry (s : State) (c : FaultCode) (y x : Int) :
    (s.faultEntry c y).memRead x = s.memRead x := by
  simp [State.memRead, State.cell]

/-- What `MemWrite` can answer. -/
theorem State.memWrite_eq_ok {s t : State} {a v : Int} :
    s.memWrite a v = .ok t ↔ s.inRange a = true ∧ t = s.storeCell a v := by
  cases h : s.inRange a <;> simp [State.memWrite, h, eq_comm]

/-- A resolved destination is the parameter word, and it is an address in range. -/
theorem State.resolveDst_eq_ok {s : State} {k : Nat} {d : Int} :
    s.resolveDst k = .ok d ↔ s.memRead (s.cursor + k) = .ok d ∧ s.inRange d = true := by
  unfold State.resolveDst
  split
  · simp [*]
  · rename_i p hp
    cases h : s.inRange p
    · simp only [hp, Bool.false_eq_true, if_false, Except.ok.injEq, reduceCtorEq, false_iff, not_and, Bool.not_eq_true]
      rintro rfl
      exact h
    · simp only [hp, if_true, Except.ok.injEq, iff_self_and]
      rintro rfl
      exact h

/-- A resolved source has its parameter word in range; its value is that word, or the cell it names. -/
theorem State.resolveSrc_eq_ok {s : State} {k : Nat} {m : Mode} {a : Int} :
    s.resolveSrc k m = .ok a ↔ ∃ p, s.memRead (s.cursor + k) = .ok p ∧
      ((m = .immediate ∧ a = p) ∨ (m = .position ∧ s.memRead p = .ok a)) := by
  unfold State.resolveSrc
  split
  · simp [*]
  · rename_i p hp
    cases m <;> simp [hp, eq_comm]

/-- What `orRaise` can answer. -/
theorem orRaise_next {α : Type} {s t : State} {r : Except Int α} {f : α → Result} (h : orRaise s r f = .next t) :
    (∃ a, r = .error a ∧ t = s.faultEntry .addressOutOfRange a) ∨ ∃ v, r = .ok v ∧ f v = .next t := by
  cases r with
  | ok v => exact .inr ⟨v, rfl, h⟩
  | error a => exact .inl ⟨a, rfl, by simpa [orRaise, raise] using h.symm⟩

/-- What format SSD can answer: a fault at the first parameter that fails, or what the instruction answers. -/
theorem withSSD_next {m1 m2 : Mode} {s t : State} {f : Int → Int → Int → Result} (h : withSSD m1 m2 s f = .next t) :
    (∃ x, t = s.faultEntry .addressOutOfRange x) ∨
      ∃ a b d, s.resolveSrc 1 m1 = .ok a ∧ s.resolveSrc 2 m2 = .ok b ∧ s.resolveDst 3 = .ok d ∧ f a b d = .next t := by
  obtain ⟨x, -, hx⟩ | ⟨a, ha, h⟩ := orRaise_next h
  · exact .inl ⟨x, hx⟩
  obtain ⟨x, -, hx⟩ | ⟨b, hb, h⟩ := orRaise_next h
  · exact .inl ⟨x, hx⟩
  obtain ⟨x, -, hx⟩ | ⟨d, hd, h⟩ := orRaise_next h
  · exact .inl ⟨x, hx⟩
  exact .inr ⟨a, b, d, ha, hb, hd, h⟩

/-- What format SS can answer. -/
theorem withSS_next {m1 m2 : Mode} {s t : State} {f : Int → Int → Result} (h : withSS m1 m2 s f = .next t) :
    (∃ x, t = s.faultEntry .addressOutOfRange x) ∨
      ∃ a b, s.resolveSrc 1 m1 = .ok a ∧ s.resolveSrc 2 m2 = .ok b ∧ f a b = .next t := by
  obtain ⟨x, -, hx⟩ | ⟨a, ha, h⟩ := orRaise_next h
  · exact .inl ⟨x, hx⟩
  obtain ⟨x, -, hx⟩ | ⟨b, hb, h⟩ := orRaise_next h
  · exact .inl ⟨x, hx⟩
  exact .inr ⟨a, b, ha, hb, h⟩

/-- What `storeExact` can answer. -/
theorem storeExact_next {W : Width} {w r d : Int} {s t : State} (h : storeExact W w r d s = .next t) :
    (W.fits r = true ∧ t = s.storeAndAdvance d r) ∨ (W.fits r = false ∧ t = s.faultEntry .arithmeticOverflow w) := by
  unfold storeExact at h
  split at h
  · exact .inl ⟨‹_›, by simpa using h.symm⟩
  · exact .inr ⟨by simp_all, by simpa [raise] using h.symm⟩

/-- What a decoded instruction can do at width `W`, said once: a fault, or one completed effect. -/
theorem execAt_next {W : Width} {i : Instr} {s t : State} (h : execAt W i s = .next t) :
    (∃ c x, t = s.faultEntry c x ∧ (c = .addressOutOfRange ∨ c = .arithmeticOverflow ∧ x = encode i)) ∨
    (∃ d r, s.resolveDst 3 = .ok d ∧ t = s.storeAndAdvance d r) ∨
    (∃ d, s.resolveDst 1 = .ok d ∧ t = readInto d s) ∨
    (∃ m a, s.resolveSrc 1 m = .ok a ∧ t = (s.pushOutput a).finish (s.cursor + 2) .ready) ∨
    (∃ m b, s.resolveSrc 2 m = .ok b ∧ ∃ taken, t = jumpIf taken b s) ∨
    t = s.finish s.cursor .halted := by
  cases i with
  | add m1 m2 dst =>
    obtain ⟨x, hx⟩ | ⟨a, b, d, -, -, hd, h⟩ := withSSD_next h
    · exact .inl ⟨_, x, hx, .inl rfl⟩
    · obtain ⟨-, h⟩ | ⟨-, h⟩ := storeExact_next h
      · exact .inr (.inl ⟨d, _, hd, h⟩)
      · exact .inl ⟨_, _, h, .inr ⟨rfl, rfl⟩⟩
  | mul m1 m2 dst =>
    obtain ⟨x, hx⟩ | ⟨a, b, d, -, -, hd, h⟩ := withSSD_next h
    · exact .inl ⟨_, x, hx, .inl rfl⟩
    · obtain ⟨-, h⟩ | ⟨-, h⟩ := storeExact_next h
      · exact .inr (.inl ⟨d, _, hd, h⟩)
      · exact .inl ⟨_, _, h, .inr ⟨rfl, rfl⟩⟩
  | read dst =>
    obtain ⟨x, -, hx⟩ | ⟨d, hd, h⟩ := orRaise_next h
    · exact .inl ⟨_, x, hx, .inl rfl⟩
    · exact .inr (.inr (.inl ⟨d, hd, by simpa using h.symm⟩))
  | write m1 =>
    obtain ⟨x, -, hx⟩ | ⟨a, ha, h⟩ := orRaise_next h
    · exact .inl ⟨_, x, hx, .inl rfl⟩
    · exact .inr (.inr (.inr (.inl ⟨m1, a, ha, by simpa using h.symm⟩)))
  | jt m1 m2 =>
    obtain ⟨x, hx⟩ | ⟨a, b, -, hb, h⟩ := withSS_next h
    · exact .inl ⟨_, x, hx, .inl rfl⟩
    · exact .inr (.inr (.inr (.inr (.inl ⟨m2, b, hb, _, by simpa using h.symm⟩))))
  | jf m1 m2 =>
    obtain ⟨x, hx⟩ | ⟨a, b, -, hb, h⟩ := withSS_next h
    · exact .inl ⟨_, x, hx, .inl rfl⟩
    · exact .inr (.inr (.inr (.inr (.inl ⟨m2, b, hb, _, by simpa using h.symm⟩))))
  | lt m1 m2 dst =>
    obtain ⟨x, hx⟩ | ⟨a, b, d, -, -, hd, h⟩ := withSSD_next h
    · exact .inl ⟨_, x, hx, .inl rfl⟩
    · exact .inr (.inl ⟨d, _, hd, by simpa using h.symm⟩)
  | eq m1 m2 dst =>
    obtain ⟨x, hx⟩ | ⟨a, b, d, -, -, hd, h⟩ := withSSD_next h
    · exact .inl ⟨_, x, hx, .inl rfl⟩
    · exact .inr (.inl ⟨d, _, hd, by simpa using h.symm⟩)
  | halt => exact .inr (.inr (.inr (.inr (.inr (by simpa [execAt, execHalt] using h.symm)))))

/-- The machine's own `exec` is the one of its width. -/
theorem exec_eq_execAt (i : Instr) (s : State) : exec i s = execAt Config.width i s := by cases i <;> rfl

/-- The machine's own `step` is the one of its width. -/
theorem step_eq_stepAt (s : State) : step s = stepAt Config.width s := by
  simp only [step, stepAt, runWith, exec_eq_execAt]

/-- `execAt_next` of the machine's own width. -/
theorem exec_next {i : Instr} {s t : State} (h : exec i s = .next t) :
    (∃ c x, t = s.faultEntry c x ∧ (c = .addressOutOfRange ∨ c = .arithmeticOverflow ∧ x = encode i)) ∨
    (∃ d r, s.resolveDst 3 = .ok d ∧ t = s.storeAndAdvance d r) ∨
    (∃ d, s.resolveDst 1 = .ok d ∧ t = readInto d s) ∨
    (∃ m a, s.resolveSrc 1 m = .ok a ∧ t = (s.pushOutput a).finish (s.cursor + 2) .ready) ∨
    (∃ m b, s.resolveSrc 2 m = .ok b ∧ ∃ taken, t = jumpIf taken b s) ∨
    t = s.finish s.cursor .halted :=
  execAt_next (exec_eq_execAt i s ▸ h)

/-- What one RUN can do, said once: nothing, a fault of fetch or decode, or the decoded instruction. -/
theorem runWith_cases (execute : Instr → State → Result) (s : State) :
    (s.state.runs = false ∧ runWith execute s = .next s) ∨
    (s.state.runs = true ∧ ∃ c x, s.fetchDecode = .error (c, x) ∧ runWith execute s = .next (s.faultEntry c x)) ∨
    (s.state.runs = true ∧ ∃ i, s.fetchDecode = .ok i ∧ runWith execute s = execute i s) := by
  cases hr : s.state.runs with
  | false => exact .inl ⟨rfl, by simp [runWith, hr]⟩
  | true =>
    match hf : s.fetchDecode with
    | .error (c, x) => exact .inr (.inl ⟨rfl, c, x, rfl, by simp [runWith, hr, hf, raise]⟩)
    | .ok i => exact .inr (.inr ⟨rfl, i, rfl, by simp [runWith, hr, hf]⟩)

/-- `runWith_cases` at width `W`. -/
theorem stepAt_cases (W : Width) (s : State) :
    (s.state.runs = false ∧ stepAt W s = .next s) ∨
    (s.state.runs = true ∧ ∃ c x, s.fetchDecode = .error (c, x) ∧ stepAt W s = .next (s.faultEntry c x)) ∨
    (s.state.runs = true ∧ ∃ i, s.fetchDecode = .ok i ∧ stepAt W s = execAt W i s) :=
  runWith_cases (execAt W) s

/-- `runWith_cases` of the machine's own step. -/
theorem step_cases (s : State) :
    (s.state.runs = false ∧ step s = .next s) ∨
    (s.state.runs = true ∧ ∃ c x, s.fetchDecode = .error (c, x) ∧ step s = .next (s.faultEntry c x)) ∨
    (s.state.runs = true ∧ ∃ i, s.fetchDecode = .ok i ∧ step s = exec i s) :=
  runWith_cases exec s

/-- When fetch and decode give an instruction. -/
theorem State.fetchDecode_eq_ok {s : State} {i : Instr} :
    s.fetchDecode = .ok i ↔ s.inRange s.cursor = true ∧ decode (s.cell s.cursor) = .ok i := by
  cases h : s.inRange s.cursor <;> cases hd : decode (s.cell s.cursor) <;>
    simp [State.fetchDecode, State.memRead, h, hd]

/-- When fetch and decode give a fault. -/
theorem State.fetchDecode_eq_error {s : State} {c : FaultCode} {x : Int} :
    s.fetchDecode = .error (c, x) ↔
      (s.inRange s.cursor = false ∧ c = .addressOutOfRange ∧ x = s.cursor) ∨
      (s.inRange s.cursor = true ∧ x = s.cell s.cursor ∧ ∃ r, decode (s.cell s.cursor) = .error r ∧ c = rejectCode r) := by
  cases h : s.inRange s.cursor <;> cases hd : decode (s.cell s.cursor) <;>
    simp [State.fetchDecode, State.memRead, h, hd, eq_comm, and_comm]

end Sys2Proof.Machine
end

