-- ==== Sys2Proof/Laws/PerInstr.lean ====
section
/-! SUPPORT. A fact of every instruction as syntax, one lemma per constructor: its instruction word (spec/30_encoding.md R82, R86). -/

namespace Sys2Proof

/-- The instruction word of a well-formed instruction is not negative, is at most 91108 ("The largest legal instruction word is
91108", R86), and holds the opcode in its two low digits (R82). -/
def Laws.EncodedWord.Statement (i : Instr) : Prop :=
  i.wellFormed = true → 0 ≤ encode i ∧ encode i ≤ 91108 ∧ encode i % 100 = i.opcode

theorem Mode.digit_le_one (m : Mode) : m.digit ≤ 1 := by cases m <;> decide

/-- The word of five decimal digits, with its bounds and its low digits. -/
theorem encodeDigits_bounds {m3 m2 m1 op : Nat} (h3 : m3 ≤ 9) (h2 : m2 ≤ 1) (h1 : m1 ≤ 9) (hop : op < 100)
    (h9 : m3 = 9 → m1 ≤ 1 ∧ op ≤ 8) :
    0 ≤ encodeDigits m3 m2 m1 op ∧ encodeDigits m3 m2 m1 op ≤ 91108 ∧ encodeDigits m3 m2 m1 op % 100 = op := by
  unfold encodeDigits
  omega

theorem Laws.EncodedWord.add (m1 m2 : Mode) (dst : Nat) : Laws.EncodedWord.Statement (.add m1 m2 dst) := fun h => by
  have := m1.digit_le_one; have := m2.digit_le_one; have : dst ≤ 9 := by simpa [Instr.wellFormed, digitOk] using h
  exact encodeDigits_bounds (by omega) (by omega) (by omega) (by omega) (by omega)

theorem Laws.EncodedWord.mul (m1 m2 : Mode) (dst : Nat) : Laws.EncodedWord.Statement (.mul m1 m2 dst) := fun h => by
  have := m1.digit_le_one; have := m2.digit_le_one; have : dst ≤ 9 := by simpa [Instr.wellFormed, digitOk] using h
  exact encodeDigits_bounds (by omega) (by omega) (by omega) (by omega) (by omega)

theorem Laws.EncodedWord.read (dst : Nat) : Laws.EncodedWord.Statement (.read dst) := fun h => by
  have : dst ≤ 9 := by simpa [Instr.wellFormed, digitOk] using h
  exact encodeDigits_bounds (by omega) (by omega) (by omega) (by omega) (by omega)

theorem Laws.EncodedWord.write (m1 : Mode) : Laws.EncodedWord.Statement (.write m1) := fun _ => by
  have := m1.digit_le_one
  exact encodeDigits_bounds (by omega) (by omega) (by omega) (by omega) (by omega)

theorem Laws.EncodedWord.jt (m1 m2 : Mode) : Laws.EncodedWord.Statement (.jt m1 m2) := fun _ => by
  have := m1.digit_le_one; have := m2.digit_le_one
  exact encodeDigits_bounds (by omega) (by omega) (by omega) (by omega) (by omega)

theorem Laws.EncodedWord.jf (m1 m2 : Mode) : Laws.EncodedWord.Statement (.jf m1 m2) := fun _ => by
  have := m1.digit_le_one; have := m2.digit_le_one
  exact encodeDigits_bounds (by omega) (by omega) (by omega) (by omega) (by omega)

theorem Laws.EncodedWord.lt (m1 m2 : Mode) (dst : Nat) : Laws.EncodedWord.Statement (.lt m1 m2 dst) := fun h => by
  have := m1.digit_le_one; have := m2.digit_le_one; have : dst ≤ 9 := by simpa [Instr.wellFormed, digitOk] using h
  exact encodeDigits_bounds (by omega) (by omega) (by omega) (by omega) (by omega)

theorem Laws.EncodedWord.eq (m1 m2 : Mode) (dst : Nat) : Laws.EncodedWord.Statement (.eq m1 m2 dst) := fun h => by
  have := m1.digit_le_one; have := m2.digit_le_one; have : dst ≤ 9 := by simpa [Instr.wellFormed, digitOk] using h
  exact encodeDigits_bounds (by omega) (by omega) (by omega) (by omega) (by omega)

theorem Laws.EncodedWord.halt : Laws.EncodedWord.Statement .halt := fun _ => by decide

end Sys2Proof
end

