-- ==== Sys2Proof/Machine/Loader.lean ====
section
/-! DEFINITION. The program loader: program text to image (spec/46_host_commands.md R191, R192) and the notation of
spec/30_encoding.md R97 to image. -/

namespace Sys2Proof.Machine

/-- "whitespace is space, horizontal tab, carriage return and line feed" (R191). -/
def isSpace (c : Char) : Bool := c == ' ' || c == '\t' || c == '\r' || c == '\n'

/-- The text cut at every comma: k commas give k + 1 tokens (R191). -/
def splitCommas : List Char → List (List Char)
  | [] => [[]]
  | c :: cs =>
    if c = ',' then [] :: splitCommas cs
    else
      match splitCommas cs with
      | [] => [[c]]
      | t :: ts => (c :: t) :: ts

/-- A token with leading and trailing whitespace removed (R191). -/
def trim (t : List Char) : List Char := ((t.dropWhile isSpace).reverse.dropWhile isSpace).reverse

/-- The value of a decimal digit. -/
def digitValue (c : Char) : Option Nat :=
  if 48 ≤ c.toNat ∧ c.toNat ≤ 57 then some (c.toNat - 48) else none

/-- The value of digits after the value `acc` of those before them. -/
def decimalFrom (acc : Nat) : List Char → Option Nat
  | [] => some acc
  | c :: cs =>
    match digitValue c with
    | some d => decimalFrom (10 * acc + d) cs
    | none => none

/-- One or more digits; "Leading zeros are allowed" (R191). -/
def decimal : List Char → Option Nat
  | [] => none
  | c :: cs => decimalFrom 0 (c :: cs)

/-- "an optional `-` followed by one or more of the digits" (R191). -/
def integerLiteral : List Char → Option Int
  | [] => none
  | c :: cs =>
    if c = '-' then (decimal cs).map fun (n : Nat) => -(n : Int)
    else (decimal (c :: cs)).map fun (n : Nat) => (n : Int)

/-- The word a token stands for; none for a non-parsing token, a literal out of the word range among them (R191). -/
def tokenWord (W : Width) (t : List Char) : Option Int :=
  match integerLiteral (trim t) with
  | some v => if W.fits v then some v else none
  | none => none

/-- `PARSE` at width `W` on the characters of a text: non-parsing tokens are dropped and leave no gap (R192, R263). -/
def parseChars (W : Width) (text : List Char) : List Int := (splitCommas text).filterMap (tokenWord W)

/-- `PARSE(text)` (R192) at width `W`: "PARSE never fails". -/
def parse (W : Width) (text : String) : List Int := parseChars W text.toList

/-- A source operand of the notation of R97: `[v]` or `#v`. -/
inductive Source where
  | cell (v : Int)
  | literal (v : Int)
deriving DecidableEq, Repr

/-- The mode digit `m(s)` of R97, as a mode. -/
def Source.mode : Source → Mode
  | .cell _ => .position
  | .literal _ => .immediate

/-- The parameter word of a source operand. -/
def Source.word : Source → Int
  | .cell v => v
  | .literal v => v

/-- A line of the notation of R97; a destination is the address `[d]`. -/
inductive Line where
  | add (s1 s2 : Source) (d : Int)
  | mul (s1 s2 : Source) (d : Int)
  | read (d : Int)
  | write (s1 : Source)
  | jt (s1 s2 : Source)
  | jf (s1 s2 : Source)
  | lt (s1 s2 : Source) (d : Int)
  | eq (s1 s2 : Source) (d : Int)
  | halt
  | data (v : Int)
deriving DecidableEq, Repr

/-- The words a line emits (R97): "The notation always emits 0 for a destination's mode digit". -/
def Line.emit : Line → List Int
  | .add s1 s2 d => [encode (.add s1.mode s2.mode 0), s1.word, s2.word, d]
  | .mul s1 s2 d => [encode (.mul s1.mode s2.mode 0), s1.word, s2.word, d]
  | .read d => [encode (.read 0), d]
  | .write s1 => [encode (.write s1.mode), s1.word]
  | .jt s1 s2 => [encode (.jt s1.mode s2.mode), s1.word, s2.word]
  | .jf s1 s2 => [encode (.jf s1.mode s2.mode), s1.word, s2.word]
  | .lt s1 s2 d => [encode (.lt s1.mode s2.mode 0), s1.word, s2.word, d]
  | .eq s1 s2 d => [encode (.eq s1.mode s2.mode 0), s1.word, s2.word, d]
  | .halt => [encode .halt]
  | .data v => [v]

/-- The image a listing stands for. -/
def assemble (lines : List Line) : List Int := lines.flatMap Line.emit

end Sys2Proof.Machine
end

