-- ==== Sys2Proof/Machine/Commands.lean ====
section
/-! DEFINITION. The host commands of one Machine and of several (spec/46_host_commands.md R190 to R204, spec/60_exceptions.md R235,
R236): each is one atomic transition with a response (spec/00_scope.md R13), at any word width (R6). The machine's own are those at
`Config.width`, where RUN is `step` (`step_eq_stepAt`). -/

namespace Sys2Proof.Machine

/-- The commands of R190, all of them. -/
inductive Command where
  | load (image : List Int)
  | run
  | peek (addr : Int)
  | poke (addr value : Int)
  | pushIn (value : Int)
  | popOut
  | getState
  | getFault
deriving DecidableEq, Repr

/-- The responses of R190. -/
inductive Response where
  /-- LOAD and PUSH_IN respond with nothing. -/
  | nothing
  /-- RUN and GET_STATE: the `state` register. -/
  | state (x : ExecState)
  /-- PEEK: `ok(value)`. -/
  | okValue (v : Int)
  /-- POKE: `ok`. -/
  | ok
  /-- PEEK and POKE: `error`. -/
  | error
  /-- POP_OUT: `some(value)` or `none`. -/
  | popped (v : Option Int)
  /-- GET_FAULT: `(fault_code, fault_info)`. -/
  | fault (code : FaultCode) (info : Int)
deriving DecidableEq, Repr

/-- What a command answers: the state after it and the response. -/
abbrev Answer := Host.Outcome (State × Response) Fault Refusal

/-- Every word of an image is a word of the width (D26: "image words"). -/
def allWords (W : Width) (image : List Int) : Bool := image.all W.fits

/-- `LOAD(image)` (R193) at width `W`: it needs no Machine and replaces the one there is (R203). -/
def load (W : Width) (image : List Int) : Answer :=
  if Config.memMax W < image.length then .refused .imageTooLong
  else if allWords W image then .next (State.ofImage image, .nothing)
  else .refused .notAWord

/-- `RUN` (R195): the step of width `W`, responding with the resulting `state`. -/
def run (W : Width) (s : State) : Answer :=
  match stepAt W s with
  | .next t => .next (t, .state t.state)
  | .fault r => .fault r
  | .refused r => .refused r

/-- `PEEK(addr)` (R197): the cell, or `error` and a faulted Machine. -/
def peek (addr : Int) (s : State) : State × Response :=
  match s.memRead addr with
  | .ok v => (s, .okValue v)
  | .error a => (s.faultEntry .addressOutOfRange a, .error)

/-- `POKE(addr, value)` (R198): the cell written and nothing else, or `error` and a faulted Machine. -/
def poke (addr value : Int) (s : State) : State × Response :=
  match s.memWrite addr value with
  | .ok t => (t, .ok)
  | .error a => (s.faultEntry .addressOutOfRange a, .error)

/-- `POP_OUT` (R200): the front of `output`, or `none` with nothing changed. -/
def popOut (s : State) : State × Response :=
  match s.output with
  | [] => (s, .popped none)
  | v :: _ => (s.dropOutput, .popped (some v))

/-- An argument outside `WMIN..WMAX` is not representable and the command has no transition (D26). -/
def withWord (W : Width) (v : Int) (answer : Answer) : Answer := if W.fits v then answer else .refused .notAWord

/-- One command to a loaded Machine (R203: "After a LOAD every command is available in every `state`"). -/
def command (W : Width) : Command → State → Answer
  | .load image, _ => load W image
  | .run, s => run W s
  | .peek addr, s => withWord W addr (.next (peek addr s))
  | .poke addr value, s => withWord W addr (withWord W value (.next (poke addr value s)))
  | .pushIn value, s => withWord W value (.next (s.pushInput value, .nothing))
  | .popOut, s => .next (popOut s)
  | .getState, s => .next (s, .state s.state)
  | .getFault, s => .next (s, .fault s.faultCode s.faultInfo)

/-- A place for a Machine: none before the first LOAD, when the Machine does not exist (spec/10_state.md R37). -/
abbrev Slot := Option State

/-- One command to a slot: before the first LOAD only LOAD is available (R203). -/
def slotCommand (W : Width) (c : Command) (m : Slot) : Answer :=
  match m, c with
  | some s, c => command W c s
  | none, .load image => load W image
  | none, _ => .refused .notLoaded

/-- Several Machines (spec/00_scope.md R9). -/
abbrev System := List Slot

/-- One command to the Machine of number `i`; "A command to one Machine changes no other Machine" (spec/60_exceptions.md R236). -/
def systemCommand (W : Width) (i : Nat) (c : Command) (sys : System) : Host.Outcome (System × Response) Fault Refusal :=
  match sys[i]? with
  | none => .refused .noSuchMachine
  | some m =>
    match slotCommand W c m with
    | .next (t, r) => .next (sys.set i (some t), r)
    | .fault r => .fault r
    | .refused r => .refused r

end Sys2Proof.Machine
end

