-- ==== Sys2Proof/Machine/Orchestration.lean ====
section
/-! DEFINITION. The host procedures over several Machines (spec/46_host_commands.md R196, R209 to R213). They may run for ever, so
each takes a bound on its rounds and says when the bound was reached (notes/assumptions/9.md), and each takes the word width (R6).
What they do with no Machine at all is the model's choice (notes/assumptions/15.md). -/

namespace Sys2Proof.Machine

/-- RUN as the host procedures use it: the state after. A step always has one (R126). -/
def runState (W : Width) (s : State) : State :=
  match stepAt W s with
  | .next t => t
  | .fault _ => s
  | .refused _ => s

/-- `DRIVE` (R196): RUN while `state == Ready`, at most `fuel` times; none when Ready is not exhausted by then. -/
def drive (W : Width) : Nat → State → Option State
  | 0, s => if s.state = .ready then none else some s
  | fuel + 1, s => if s.state = .ready then drive W fuel (runState W s) else some s

/-- POP_OUT at most `n` times, stopping at `none`: the values in order, and the Machine after. -/
def drainUpTo : Nat → State → List Int × State
  | 0, s => ([], s)
  | n + 1, s =>
    match popOut s with
    | (t, .popped (some v)) => (v :: (drainUpTo n t).1, (drainUpTo n t).2)
    | (t, _) => ([], t)

/-- `DRAIN` (section 8): "POP_OUT until `none`, returning the values in order". -/
def drain (s : State) : List Int × State := drainUpTo (s.output.length + 1) s

/-- PUSH_IN of each value in order. -/
def feed (vals : List Int) (s : State) : State := vals.foldl (fun t v => t.pushInput v) s

/-- A Topology (R209): the Machines in their order. -/
abbrev Topology := List State

/-- The Machines of a Topology after every LOAD and PUSH_IN of R209: each from its own copy of the image with its configuration
value, the first with the seed after it. DESIGN CHOICE (log 15): with no configuration value there is no Machine to seed, and the
Topology is empty. -/
def seeded (image : List Int) (seed : Int) : List Int → Topology
  | [] => []
  | c :: cs => feed [c, seed] (State.ofImage image) :: cs.map fun d => feed [d] (State.ofImage image)

/-- Seeding (R209), refused where a LOAD or a PUSH_IN of it is refused (R193, D26). -/
def seedTopology (W : Width) (image configs : List Int) (seed : Int) : Host.Outcome Topology Fault Refusal :=
  if Config.memMax W < image.length then .refused .imageTooLong
  else if allWords W image && allWords W configs && W.fits seed then
    .next (seeded image seed configs)
  else .refused .notAWord

/-- How a host procedure ends. -/
inductive HostEnd where
  /-- It completed, with its result (none when the last Machine gave no output, or there is no Machine) and the Machines as it left them. -/
  | finished (result : Option Int) (machines : Topology)
  /-- The host stopped the whole run: a Machine is Faulted, or a pipeline stage starves (R213). -/
  | aborted (machines : Topology)
  /-- A LOAD or a PUSH_IN of the seeding was refused. -/
  | refused (r : Refusal)
  /-- The bound was reached; the procedure itself goes on (R127, R207). -/
  | unfinished
deriving DecidableEq, Repr

/-- `HostEnd` with a Machine put in front of those it leaves. -/
def HostEnd.cons (m : State) : HostEnd → HostEnd
  | .finished r ms => .finished r (m :: ms)
  | .aborted ms => .aborted (m :: ms)
  | .refused r => .refused r
  | .unfinished => .unfinished

/-- The linear pipeline (R210) from a stage on: `carry` is what the stage before has drained. Each stage is run to Halted, its
`output` drained and pushed to the next; "the last machine's final output value is the pipeline's result".
DESIGN CHOICE (log 15): an empty Topology is finished with no result. -/
def linearFrom (W : Width) (fuel : Nat) (carry : List Int) : Topology → HostEnd
  | [] => .finished carry.getLast? []
  | m :: ms =>
    match drive W fuel (feed carry m) with
    | none => .unfinished
    | some t =>
      match t.state with
      | .halted => (linearFrom W fuel (drain t).1 ms).cons (drain t).2
      | .ready => .aborted (t :: ms)
      | .waiting => .aborted (t :: ms)
      | .faulted => .aborted (t :: ms)

/-- The linear pipeline over a seeded Topology (R210), each DRIVE bounded by `fuel`. -/
def linearPipeline (W : Width) (fuel : Nat) (machines : Topology) : HostEnd := linearFrom W fuel [] machines

/-- A Machine as one visit of R211 drives it: one RUN first if it is Waiting, then DRIVE. -/
def visit (W : Width) (fuel : Nat) (m : State) : Option State :=
  drive W fuel (if m.state = .waiting then runState W m else m)

/-- The feedback loop (R211) from a visit to Machine `i` on, at most `visits` of them. DESIGN CHOICE (log 15): where
there is no Machine `i`, which is so only in an empty Topology, it is finished with the result so far. -/
def feedbackFrom (W : Width) (fuel : Nat) : Nat → Nat → Option Int → Topology → HostEnd
  | 0, _, _, _ => .unfinished
  | visits + 1, i, result, ms =>
    match ms[i]? with
    | none => .finished result ms
    | some m =>
      if m.state = .halted then .finished result ms
      else
        match visit W fuel m with
        | none => .unfinished
        | some t =>
          if t.state = .faulted then .aborted (ms.set i t)
          else
            let vals := (drain t).1
            let next := (i + 1) % ms.length
            let result' := if i + 1 = ms.length ∧ vals ≠ [] then vals.getLast? else result
            feedbackFrom W fuel visits next result' ((ms.set i (drain t).2).modify next (feed vals))

/-- The feedback loop over a seeded Topology (R211). -/
def feedbackLoop (W : Width) (fuel visits : Nat) (machines : Topology) : HostEnd := feedbackFrom W fuel visits 0 none machines

/-- Every way to put a value into a list. -/
def insertions (v : Int) : List Int → List (List Int)
  | [] => [[v]]
  | w :: ws => (v :: w :: ws) :: (insertions v ws).map fun l => w :: l

/-- The permutations of a configuration set. -/
def permutations : List Int → List (List Int)
  | [] => [[]]
  | v :: vs => (permutations vs).flatMap (insertions v)

/-- The larger of the best result so far and one more. -/
def better (best : Option Int) (r : Int) : Option Int :=
  match best with
  | none => some r
  | some b => some (max b r)

/-- The search over configurations (R212): a fresh Topology for every permutation, the largest result kept. `evaluate` runs R210 or
R211 on one configuration; a run that aborts or is not finished ends the search (R213). -/
def searchFrom (evaluate : List Int → HostEnd) (best : Option Int) : List (List Int) → HostEnd
  | [] => .finished best []
  | c :: cs =>
    match evaluate c with
    | .finished (some r) _ => searchFrom evaluate (better best r) cs
    | .finished none _ => searchFrom evaluate best cs
    | .aborted ms => .aborted ms
    | .refused r => .refused r
    | .unfinished => .unfinished

/-- Seed a fresh Topology and run a procedure over it. -/
def seedAndRun (W : Width) (procedure : Topology → HostEnd) (image : List Int) (seed : Int) (configs : List Int) : HostEnd :=
  match seedTopology W image configs seed with
  | .next machines => procedure machines
  | .refused r => .refused r
  | .fault r => nomatch r

/-- The search of R212 with the feedback loop. -/
def searchFeedback (W : Width) (fuel visits : Nat) (image : List Int) (seed : Int) (set : List Int) : HostEnd :=
  searchFrom (seedAndRun W (feedbackLoop W fuel visits) image seed) none (permutations set)

/-- The search of R212 with the linear pipeline. -/
def searchLinear (W : Width) (fuel : Nat) (image : List Int) (seed : Int) (set : List Int) : HostEnd :=
  searchFrom (seedAndRun W (linearPipeline W fuel) image seed) none (permutations set)

end Sys2Proof.Machine
end

