-- ==== Sys2Proof/Safety.lean ====
section
/-! DEFINITION. What counts as a safe run, in the terms the statements use: the invariant of a Machine, reachability, the ways a run
ends, and the spec's own tables (spec/30_encoding.md R86, spec/60_exceptions.md R224) written down apart from the meanings. -/

namespace Sys2Proof.Machine

/-- What holds of every Machine of width `W` between commands (spec/10_state.md R22 to R30, R35; spec/00_scope.md R7). -/
structure State.Inv (W : Width) (s : State) : Prop where
  /-- Memory keeps its canonical form. -/
  memCanonical : s.mem.wf = true
  /-- No cell stands outside `0..N-1` (R50). -/
  memInside : s.mem.below s.memLen = true
  /-- `N <= MEM_MAX` (R7). -/
  lenBounded : s.memLen ≤ Config.memMax W
  /-- Every cell holds a word, `WMIN` to `WMAX` (R23). -/
  cellsFit : allWords W (s.mem.map Prod.snd) = true
  /-- The cursor is one word (R22). -/
  cursorFits : W.fits s.cursor = true
  /-- `input` holds words (R27). -/
  inputFits : allWords W s.input = true
  /-- `output` holds words (R28). -/
  outputFits : allWords W s.output = true
  /-- `fault_info` is one word (R30). -/
  infoFits : W.fits s.faultInfo = true
  /-- "`state == Faulted` if and only if `fault_code != None`" (R35). -/
  faultedIff : s.state = .faulted ↔ s.faultCode ≠ .none
  /-- "Its value while `fault_code == None` is 0" (R30). -/
  infoZero : s.faultCode = .none → s.faultInfo = 0

/-- The states "reachable from a LOAD by the commands" (R35), at width `W`. -/
inductive Reachable (W : Width) : State → Prop where
  | load {image : List Int} {s : State} {r : Response} : load W image = .next (s, r) → Reachable W s
  | command {c : Command} {s t : State} {r : Response} : Reachable W s → command W c s = .next (t, r) → Reachable W t

/-- The normal end: "Halted with `fault_code == None` is the only normal end" (spec/60_exceptions.md R241). -/
def State.succeeded (s : State) : Bool := decide (s.state = .halted ∧ s.faultCode = .none)

/-- "A run of one Machine is over when `state` is Halted or Faulted" (spec/70_reset_and_hazards.md R256). -/
def State.over (s : State) : Bool := !s.state.runs

/-- "Waiting for ever because the host supplies no more input" (R267): blocked with nothing to read. -/
def State.starved (s : State) : Bool := decide (s.state = .waiting ∧ s.input = [])

/-- What a fault entry from a state that is not Faulted leaves (spec/60_exceptions.md R226). -/
def State.faultedWith (code : FaultCode) (info : Int) (s : State) : State :=
  { s with state := .faulted, faultCode := code, faultInfo := info }

/-- The formats of spec/30_encoding.md R84. -/
inductive Format where
  | ssd
  | d
  | s
  | ss
  | z
deriving DecidableEq, Repr

/-- The format of a listed opcode (R84, R86); none for an unrecognized one. -/
def formatOf (op : Nat) : Option Format :=
  if op = 1 ∨ op = 2 ∨ op = 7 ∨ op = 8 then some .ssd
  else if op = 3 then some .d
  else if op = 4 then some .s
  else if op = 5 ∨ op = 6 then some .ss
  else if op = 99 then some .z
  else none

/-- The digits that must be 0 or 1 and the digits that must be 0, per format (R84). -/
def Format.digitsLegal : Format → Nat → Bool
  | .ssd, w => decide (digit w 2 ≤ 1 ∧ digit w 3 ≤ 1 ∧ highDigits w = 0)
  | .d, w => decide (digit w 3 = 0 ∧ digit w 4 = 0 ∧ highDigits w = 0)
  | .s, w => decide (digit w 2 ≤ 1 ∧ digit w 3 = 0 ∧ digit w 4 = 0 ∧ highDigits w = 0)
  | .ss, w => decide (digit w 2 ≤ 1 ∧ digit w 3 ≤ 1 ∧ digit w 4 = 0 ∧ highDigits w = 0)
  | .z, w => decide (digit w 2 = 0 ∧ digit w 3 = 0 ∧ digit w 4 = 0 ∧ highDigits w = 0)

/-- The legal instruction words of one opcode of format SSD: `10000*c + 1000*b + 100*a + op`, a, b in 0..1, c in 0..9 (R86). -/
def legalSSD (op : Nat) : List Nat :=
  (List.range 10).flatMap fun c =>
    (List.range 2).flatMap fun b => (List.range 2).map fun a => 10000 * c + 1000 * b + 100 * a + op

/-- The legal instruction words of R86. -/
def legalWords : List Nat :=
  legalSSD 1 ++ legalSSD 2 ++ (List.range 10).map (fun a => 100 * a + 3) ++ [4, 104]
    ++ [5, 105, 1005, 1105] ++ [6, 106, 1006, 1106] ++ legalSSD 7 ++ legalSSD 8 ++ [99]

/-- One row of the table of R224: whether the check passes, and the fault it raises when it fails. -/
structure Check where
  passes : Bool
  code : FaultCode
  info : Int
deriving DecidableEq, Repr

/-- A bounds check. -/
def boundsCheck (s : State) (a : Int) : Check := ⟨s.inRange a, .addressOutOfRange, a⟩

/-- Rows 4 to 9 for parameter `k`: its word is in memory, and, where it is used as an address, that address is. -/
def parameterChecks (s : State) (k : Nat) (isAddress : Bool) : List Check :=
  boundsCheck s (s.cursor + k) :: if isAddress then [boundsCheck s (s.cell (s.cursor + k))] else []

/-- The value a source parameter has when its checks pass: the literal for digit 1, the cell it names for digit 0 (R83). -/
def sourceValue (s : State) (w k : Nat) : Int :=
  if digit w (k + 1) = 1 then s.cell (s.cursor + k) else s.cell (s.cell (s.cursor + k))

/-- Rows 4 to 9 for a format: "if source in Position mode, or destination". -/
def Format.parameterChecks (s : State) (w : Nat) : Format → List Check
  | .ssd =>
    Machine.parameterChecks s 1 (digit w 2 == 0) ++ Machine.parameterChecks s 2 (digit w 3 == 0)
      ++ Machine.parameterChecks s 3 true
  | .d => Machine.parameterChecks s 1 true
  | .s => Machine.parameterChecks s 1 (digit w 2 == 0)
  | .ss => Machine.parameterChecks s 1 (digit w 2 == 0) ++ Machine.parameterChecks s 2 (digit w 3 == 0)
  | .z => []

/-- Row 10: "ADD, MUL only: the exact result fits". -/
def resultChecks (s : State) (w : Nat) : List Check :=
  if w % 100 = 1 then [⟨Config.width.fits (sourceValue s w 1 + sourceValue s w 2), .arithmeticOverflow, (w : Int)⟩]
  else if w % 100 = 2 then [⟨Config.width.fits (sourceValue s w 1 * sourceValue s w 2), .arithmeticOverflow, (w : Int)⟩]
  else []

/-- Rows 3 to 10 for a non-negative word of a known format. -/
def formatChecks (s : State) (w : Nat) (f : Format) : List Check :=
  ⟨f.digitsLegal w, .illegalMode, (w : Int)⟩ :: (f.parameterChecks s w ++ resultChecks s w)

/-- Rows 2 to 10 for an instruction word. -/
def wordChecks (s : State) (w : Int) : List Check :=
  match if w < 0 then none else formatOf (w.toNat % 100) with
  | none => [⟨false, .illegalOpcode, w⟩]
  | some f => formatChecks s w.toNat f

/-- The first check that fails, with what it raises. -/
def firstFailing : List Check → Option (FaultCode × Int)
  | [] => none
  | c :: cs => if c.passes then firstFailing cs else some (c.code, c.info)

/-- "Order of checks within one RUN. The first check that fails raises its fault and the rest are not made" (R224). -/
def State.priorityFault (s : State) : Option (FaultCode × Int) :=
  firstFailing (boundsCheck s s.cursor :: wordChecks s (s.cell s.cursor))

/-- The `state` that an instruction leaves when it completes (spec/40_step_and_operands.md R119, R124). -/
def stateAfter (i : Instr) (input : List Int) : ExecState :=
  match i with
  | .halt => .halted
  | .read _ => if input = [] then .waiting else .ready
  | .add _ _ _ => .ready
  | .mul _ _ _ => .ready
  | .write _ => .ready
  | .jt _ _ => .ready
  | .jf _ _ => .ready
  | .lt _ _ _ => .ready
  | .eq _ _ _ => .ready

end Sys2Proof.Machine
end

