-- ==== Sys2Proof/Certificates/Slice0/Obligations.lean ====
section
/-! DEFINITION. The statements for the provers, each a rule of spec/ or a consequence of rules (OBLIGATIONS.json). -/

open Sys2Proof Sys2Proof.Machine

/-! ## Encoding -/

/-- R91 with the opcode map R86: decoding the word of a well-formed instruction gives it back, every digit kept. -/
def Obligations.DecodeOfEncodeIsTheInstruction : Prop :=
  ∀ i : Instr, i.wellFormed = true → decode (encode i) = .ok i

/-- The other direction: a word that decodes is the word of the instruction it decodes to, which is well-formed; so no two
instructions share a word and no digit of a legal word is dropped. -/
def Obligations.DecodableWordIsTheEncoding : Prop :=
  ∀ (w : Int) (i : Instr), decode w = .ok i → encode i = w ∧ i.wellFormed = true

/-- Words written out digit by digit from R82, R86 and the vectors DEC1 to DEC33. -/
def Obligations.SpecWordsDecodeAsListed : Prop :=
  decode 1 = .ok (.add .position .position 0) ∧ decode 21001 = .ok (.add .position .immediate 2) ∧
  decode 1002 = .ok (.mul .position .immediate 0) ∧ decode 903 = .ok (.read 9) ∧ decode 104 = .ok (.write .immediate) ∧
  decode 105 = .ok (.jt .immediate .position) ∧ decode 1006 = .ok (.jf .position .immediate) ∧
  decode 1107 = .ok (.lt .immediate .immediate 0) ∧ decode 91108 = .ok (.eq .immediate .immediate 9) ∧
  decode 99 = .ok .halt ∧ decode 199 = .error .illegalMode ∧ decode 250 = .error .illegalOpcode ∧
  decode (-99) = .error .illegalOpcode

/-- R86: the legal instruction words are exactly those of the opcode map, 181 of them, the largest 91108. -/
def Obligations.LegalWordsAreTheOpcodeMap : Prop :=
  (∀ w : Int, (∃ i, decode w = .ok i) ↔ ∃ n ∈ legalWords, w = (n : Int)) ∧
  legalWords.length = 181 ∧ legalWords.Nodup ∧ 91108 ∈ legalWords ∧ ∀ n ∈ legalWords, n ≤ 91108

/-- R92 (the spec's decision D6), R93: a RUN that fetches a negative word, or one whose value modulo 100 is no listed opcode,
faults with IllegalOpcode and the word, and decode gives that reason for no other word. -/
def Obligations.UnlistedOpcodeFaults : Prop :=
  (∀ w : Int, decode w = .error .illegalOpcode ↔ w < 0 ∨ w % 100 ∉ ([1, 2, 3, 4, 5, 6, 7, 8, 99] : List Int)) ∧
  ∀ s : State, s.state.runs = true → s.inRange s.cursor = true →
    (s.cell s.cursor < 0 ∨ s.cell s.cursor % 100 ∉ ([1, 2, 3, 4, 5, 6, 7, 8, 99] : List Int)) →
    step s = .next (s.faultedWith .illegalOpcode (s.cell s.cursor))

/-- R94, R95 (the spec's decisions D7, D8): a word with a listed opcode and an illegal digit for its format (R84) faults with
IllegalMode and the word, and decode gives that reason for no other word. -/
def Obligations.IllegalDigitFaults : Prop :=
  (∀ w : Int, decode w = .error .illegalMode ↔
    0 ≤ w ∧ ∃ f, formatOf (w.toNat % 100) = some f ∧ f.digitsLegal w.toNat = false) ∧
  ∀ (s : State) (f : Format), s.state.runs = true → s.inRange s.cursor = true → 0 ≤ s.cell s.cursor →
    formatOf ((s.cell s.cursor).toNat % 100) = some f → f.digitsLegal (s.cell s.cursor).toNat = false →
    step s = .next (s.faultedWith .illegalMode (s.cell s.cursor))

/-- R85, R25, R119: an instruction is 1, 2, 3 or 4 words long, by the opcode of its instruction word, and that is how far the cursor
advances when it completes without jumping, blocking or halting (JT jumps on a condition that is not 0, JF on 0). -/
def Obligations.LengthIsGivenByTheOpcode : Prop :=
  (∀ i : Instr, i.length =
    if i.opcode = 1 ∨ i.opcode = 2 ∨ i.opcode = 7 ∨ i.opcode = 8 then 4
    else if i.opcode = 5 ∨ i.opcode = 6 then 3
    else if i.opcode = 3 ∨ i.opcode = 4 then 2
    else 1) ∧
  (∀ (w : Int) (i : Instr), decode w = .ok i → (i.opcode : Int) = w % 100) ∧
  ∀ (i : Instr) (s t : State), exec i s = .next t → t.state = .ready →
    (∀ m1 m2, i = .jt m1 m2 → s.resolveSrc 1 m1 = .ok 0) → (∀ m1 m2, i = .jf m1 m2 → s.resolveSrc 1 m1 ≠ .ok 0) →
    t.cursor = s.cursor + (i.length : Int)

/-- R88: the digit of a destination is ignored. READ, LT and EQ behave the same for all ten; so do ADD and MUL, but for the
instruction word an ArithmeticOverflow records. -/
def Obligations.DestinationDigitIsIgnored : Prop :=
  ∀ (m1 m2 : Mode) (c c' : Nat) (s t : State),
    exec (.read c) s = exec (.read c') s ∧ exec (.lt m1 m2 c) s = exec (.lt m1 m2 c') s ∧
    exec (.eq m1 m2 c) s = exec (.eq m1 m2 c') s ∧
    (exec (.add m1 m2 c) s = .next t → t.faultCode ≠ .arithmeticOverflow → exec (.add m1 m2 c') s = .next t) ∧
    (exec (.mul m1 m2 c) s = .next t → t.faultCode ≠ .arithmeticOverflow → exec (.mul m1 m2 c') s = .next t)

/-! ## Reset, LOAD and availability -/

/-- R34, R250 with the empty image (log 4, the model's choice of the image): what reset leaves, and that LOAD of it leaves the same,
at every width. -/
def Obligations.ResetIsLoadOfTheEmptyImage : Prop :=
  State.reset.memLen = 0 ∧ State.reset.mem = [] ∧ State.reset.cursor = 0 ∧ State.reset.state = .ready ∧
  State.reset.input = [] ∧ State.reset.output = [] ∧ State.reset.faultCode = .none ∧ State.reset.faultInfo = 0 ∧
  ∀ W : Width, load W [] = .next (State.reset, .nothing)

/-- R34, R193 (the fault registers by the spec's decision D5), at every width: what LOAD constructs, for every image of at most
MEM_MAX words; a longer one, and one that holds a value outside the word range (D26), has no transition. Under which of the two
names an image that is both is refused is the model's choice (log 8). -/
def Obligations.LoadConstructsTheMachine : Prop :=
  ∀ (W : Width) (image : List Int),
    (image.length ≤ Config.memMax W → (∀ v ∈ image, W.fits v = true) →
      ∃ t, load W image = .next (t, .nothing) ∧ t.memLen = image.length ∧
        (∀ (i : Nat) (h : i < image.length), t.memRead i = .ok image[i]) ∧
        t.cursor = 0 ∧ t.state = .ready ∧ t.input = [] ∧ t.output = [] ∧ t.faultCode = .none ∧ t.faultInfo = 0) ∧
    (Config.memMax W < image.length → load W image = .refused .imageTooLong) ∧
    (image.length ≤ Config.memMax W → ∀ v ∈ image, W.fits v = false → load W image = .refused .notAWord)

/-- R37, R203, at every width: before the first LOAD only LOAD is available; after it every command is, in every state. -/
def Obligations.OnlyLoadBeforeTheFirstLoad : Prop :=
  ∀ W : Width,
    (∀ c : Command, (∀ image, c ≠ .load image) → slotCommand W c none = .refused .notLoaded) ∧
    (∀ image : List Int, slotCommand W (.load image) none = load W image) ∧
    (∀ (c : Command) (s : State), slotCommand W c (some s) = command W c s)

/-! ## Memory and operands -/

/-- R54: a read of an address in range gives the cell; any other address fails with that address. -/
def Obligations.MemReadChecksTheBounds : Prop :=
  ∀ (s : State) (a : Int),
    (0 ≤ a ∧ a < (s.memLen : Int) → s.memRead a = .ok (s.cell a)) ∧
    (a < 0 ∨ (s.memLen : Int) ≤ a → s.memRead a = .error a)

/-- R55: a write of an address in range writes that cell and no other; any other address fails and no cell changes. -/
def Obligations.MemWriteWritesOneCell : Prop :=
  ∀ (s : State) (a v : Int), s.mem.wf = true →
    (0 ≤ a ∧ a < (s.memLen : Int) → ∃ t, s.memWrite a v = .ok t ∧ t = { s with mem := t.mem } ∧
      ∀ x, t.memRead x = if x = a then .ok v else s.memRead x) ∧
    (a < 0 ∨ (s.memLen : Int) ≤ a → s.memWrite a v = .error a)

/-- R116: source parameters. -/
def Obligations.SourceParameterValue : Prop :=
  ∀ (s : State) (k : Nat) (m : Mode),
    (s.inRange (s.cursor + k) = false → s.resolveSrc k m = .error (s.cursor + k)) ∧
    (s.inRange (s.cursor + k) = true →
      s.resolveSrc k .immediate = .ok (s.cell (s.cursor + k)) ∧
      s.resolveSrc k .position =
        if s.inRange (s.cell (s.cursor + k)) then .ok (s.cell (s.cell (s.cursor + k)))
        else .error (s.cell (s.cursor + k)))

/-- R117: destination parameters. -/
def Obligations.DestinationParameterAddress : Prop :=
  ∀ (s : State) (k : Nat),
    (s.inRange (s.cursor + k) = false → s.resolveDst k = .error (s.cursor + k)) ∧
    (s.inRange (s.cursor + k) = true → s.resolveDst k =
      if s.inRange (s.cell (s.cursor + k)) then .ok (s.cell (s.cursor + k)) else .error (s.cell (s.cursor + k)))

/-! ## RUN -/

/-- R111, R113: when the word at the cursor decodes, RUN is exec of what it decodes to, with nothing around it. -/
def Obligations.RunExecutesTheDecodedInstruction : Prop :=
  ∀ (s : State) (w : Int) (i : Instr), (s.state = .ready ∨ s.state = .waiting) →
    s.memRead s.cursor = .ok w → decode w = .ok i → step s = exec i s

/-- R112: a fetch outside memory faults with the cursor. -/
def Obligations.FetchOutsideMemoryFaults : Prop :=
  ∀ s : State, (s.state = .ready ∨ s.state = .waiting) → (s.cursor < 0 ∨ (s.memLen : Int) ≤ s.cursor) →
    step s = .next (s.faultedWith .addressOutOfRange s.cursor)

/-- R110 (the spec's decisions D14, D15): RUN changes nothing in Halted and Faulted, and whether the Machine was Ready or Waiting is
no input to the step. -/
def Obligations.StateRegisterOnlyGatesRun : Prop :=
  (∀ (W : Width) (s : State), (s.state = .halted ∨ s.state = .faulted) →
    step s = .next s ∧ command W .run s = .next (s, .state s.state)) ∧
  ∀ s : State, step { s with state := .waiting } = step { s with state := .ready }

/-- R126, R204: every RUN has a next state and responds with its state register, and RUN as a command of the machine's width is
`step`; every command, at every width, answers or is refused, and where it is refused it is refused in every state. -/
def Obligations.EveryCommandAnswers : Prop :=
  (∀ s : State, ∃ t, step s = .next t ∧ command Config.width .run s = .next (t, .state t.state)) ∧
  (∀ (W : Width) (s : State), ∃ t, stepAt W s = .next t ∧ command W .run s = .next (t, .state t.state)) ∧
  ∀ (W : Width) (c : Command) (s s' : State),
    (∃ p, command W c s = .next p) ∨ ∃ r, command W c s = .refused r ∧ command W c s' = .refused r

/-- R224 (the spec's decisions D11, D13): the fault of a RUN is the first check of the priority table that fails, and there is
none when all pass; then the Machine is Waiting exactly when the instruction is a READ and `input` is empty (row 11). -/
def Obligations.RunFaultsByThePriorityTable : Prop :=
  ∀ s : State, (s.state = .ready ∨ s.state = .waiting) →
    match s.priorityFault with
    | some (code, info) => step s = .next (s.faultedWith code info)
    | none => ∃ t, step s = .next t ∧ t.state ≠ .faulted ∧ t.faultCode = s.faultCode ∧ t.faultInfo = s.faultInfo ∧
        (t.state = .waiting ↔ s.cell s.cursor % 100 = 3 ∧ s.input = [])

/-- R120, R229 (the spec's decision D12): a RUN that faults leaves memory, cursor and queues as they were. -/
def Obligations.FaultsArePrecise : Prop :=
  ∀ s t : State, (s.state = .ready ∨ s.state = .waiting) → step s = .next t → t.state = .faulted →
    t.faultCode ≠ .none ∧ t = s.faultedWith t.faultCode t.faultInfo

/-- R226: fault entry. -/
def Obligations.FaultEntryWritesTheFaultRegisters : Prop :=
  ∀ (s : State) (code : FaultCode) (info : Int),
    (s.state ≠ .faulted → s.faultEntry code info = { s with state := .faulted, faultCode := code, faultInfo := info }) ∧
    (s.state = .faulted → s.faultEntry code info = s)

/-- R227: nothing but LOAD leaves Faulted, and the first fault is kept. -/
def Obligations.FaultedIsLeftOnlyByLoad : Prop :=
  ∀ (W : Width) (c : Command) (s t : State) (r : Response), (∀ image, c ≠ .load image) → s.state = .faulted →
    command W c s = .next (t, r) → t.state = .faulted ∧ t.faultCode = s.faultCode ∧ t.faultInfo = s.faultInfo

/-- R181, R35: without a LOAD, `state` leaves Halted only by a PEEK or POKE of an address out of range, which faults. -/
def Obligations.HaltedIsLeftOnlyByABadAddress : Prop :=
  ∀ (W : Width) (c : Command) (s t : State) (r : Response), (∀ image, c ≠ .load image) → s.state = .halted →
    command W c s = .next (t, r) → t.state ≠ .halted →
    ∃ a, s.inRange a = false ∧ (c = .peek a ∨ ∃ v, c = .poke a v) ∧ t = s.faultedWith .addressOutOfRange a

/-- R35, R36: a RUN that returns Waiting found a READ at the cursor and an empty `input`, and changed nothing else. -/
def Obligations.WaitingIsABlockedRead : Prop :=
  ∀ s t : State, (s.state = .ready ∨ s.state = .waiting) → step s = .next t → t.state = .waiting →
    s.input = [] ∧ t = { s with state := .waiting } ∧ t.inRange t.cursor = true ∧ t.cell t.cursor % 100 = 3 ∧
    ∃ d, t.resolveDst 1 = .ok d

/-- R180, R182: a RUN returns Halted exactly when the word at the cursor is 99, and then only `state` has changed. -/
def Obligations.OnlyTheWord99Halts : Prop :=
  ∀ s : State, (s.state = .ready ∨ s.state = .waiting) →
    ((∃ t, step s = .next t ∧ t.state = .halted) ↔ s.inRange s.cursor = true ∧ s.cell s.cursor = 99) ∧
    ∀ t, step s = .next t → t.state = .halted → t = { s with state := .halted }

/-- R124: the `state` after a RUN that does not fault, by the instruction decoded. -/
def Obligations.StateTransitionTable : Prop :=
  ∀ (s t : State) (w : Int) (i : Instr), (s.state = .ready ∨ s.state = .waiting) →
    s.memRead s.cursor = .ok w → decode w = .ok i → step s = .next t → t.state ≠ .faulted →
    t.state = stateAfter i s.input ∧ t.faultCode = s.faultCode ∧ t.faultInfo = s.faultInfo

/-! ## The instructions -/

/-- R140: ADD stores the exact sum at its destination where it fits a word of 64 bits (log 1); where it does not, it faults with
ArithmeticOverflow and the instruction word, which for every decoded instruction is its encoding (log 6, the model's inference; no
word decodes to a destination digit above 9, and there the encoding recorded is the model's alone). -/
def Obligations.AddStoresTheExactSum : Prop :=
  ∀ (m1 m2 : Mode) (dst : Nat) (s : State) (a b d : Int), s.mem.wf = true →
    s.resolveSrc 1 m1 = .ok a → s.resolveSrc 2 m2 = .ok b → s.resolveDst 3 = .ok d →
    (-(2 ^ 63) ≤ a + b → a + b < 2 ^ 63 →
      ∃ t, exec (.add m1 m2 dst) s = .next t ∧ (∀ x, t.memRead x = if x = d then .ok (a + b) else s.memRead x) ∧
        t = { s with mem := t.mem, cursor := s.cursor + 4, state := .ready }) ∧
    ((a + b < -(2 ^ 63) ∨ 2 ^ 63 ≤ a + b) →
      exec (.add m1 m2 dst) s = .next (s.faultEntry .arithmeticOverflow (encode (.add m1 m2 dst))))

/-- R141: MUL stores the exact product at its destination where it fits a word of 64 bits (log 1); where it does not, it faults with
ArithmeticOverflow and the instruction word, which for every decoded instruction is its encoding (log 6, the model's inference; no
word decodes to a destination digit above 9, and there the encoding recorded is the model's alone). -/
def Obligations.MulStoresTheExactProduct : Prop :=
  ∀ (m1 m2 : Mode) (dst : Nat) (s : State) (a b d : Int), s.mem.wf = true →
    s.resolveSrc 1 m1 = .ok a → s.resolveSrc 2 m2 = .ok b → s.resolveDst 3 = .ok d →
    (-(2 ^ 63) ≤ a * b → a * b < 2 ^ 63 →
      ∃ t, exec (.mul m1 m2 dst) s = .next t ∧ (∀ x, t.memRead x = if x = d then .ok (a * b) else s.memRead x) ∧
        t = { s with mem := t.mem, cursor := s.cursor + 4, state := .ready }) ∧
    ((a * b < -(2 ^ 63) ∨ 2 ^ 63 ≤ a * b) →
      exec (.mul m1 m2 dst) s = .next (s.faultEntry .arithmeticOverflow (encode (.mul m1 m2 dst))))

/-- R142 (the spec's decision D2) at the level of a RUN and at every width: when the word fetched is an ADD or MUL whose
parameters all resolve and whose exact result is no word, the Machine faults with ArithmeticOverflow and the word fetched, and
memory, cursor and queues are unchanged. -/
def Obligations.OverflowFaultsWithTheFetchedWord : Prop :=
  ∀ (W : Width) (m1 m2 : Mode) (dst : Nat) (s : State) (w a b d : Int), (s.state = .ready ∨ s.state = .waiting) →
    s.memRead s.cursor = .ok w →
    s.resolveSrc 1 m1 = .ok a → s.resolveSrc 2 m2 = .ok b → s.resolveDst 3 = .ok d →
    (decode w = .ok (.add m1 m2 dst) → W.fits (a + b) = false → stepAt W s = .next (s.faultedWith .arithmeticOverflow w)) ∧
    (decode w = .ok (.mul m1 m2 dst) → W.fits (a * b) = false → stepAt W s = .next (s.faultedWith .arithmeticOverflow w))

/-- R64, R260: an ADD that writes the instruction word after it; the next RUN executes what was written, with no barrier. R261: the
advance is 4 whatever was written. -/
def Obligations.StoredWordIsTheNextInstruction : Prop :=
  ∀ (m1 m2 : Mode) (dst : Nat) (s : State) (a b : Int) (j : Instr), s.mem.wf = true →
    s.resolveSrc 1 m1 = .ok a → s.resolveSrc 2 m2 = .ok b → s.resolveDst 3 = .ok (s.cursor + 4) →
    decode (a + b) = .ok j →
    ∃ t, exec (.add m1 m2 dst) s = .next t ∧ t.cursor = s.cursor + 4 ∧ step t = exec j t

/-- R150 with `input` non-empty: the front goes to memory. -/
def Obligations.ReadStoresTheFrontOfInput : Prop :=
  ∀ (dst : Nat) (s : State) (d v : Int) (rest : List Int), s.mem.wf = true →
    s.resolveDst 1 = .ok d → s.input = v :: rest →
    ∃ t, exec (.read dst) s = .next t ∧ (∀ x, t.memRead x = if x = d then .ok v else s.memRead x) ∧
      t = { s with mem := t.mem, input := rest, cursor := s.cursor + 2, state := .ready }

/-- R150 with `input` empty: Waiting, and nothing else changes. -/
def Obligations.ReadBlocksOnEmptyInput : Prop :=
  ∀ (dst : Nat) (s : State) (d : Int), s.resolveDst 1 = .ok d → s.input = [] →
    exec (.read dst) s = .next { s with state := .waiting }

/-- R151: WRITE appends its operand to `output`. -/
def Obligations.WriteAppendsToOutput : Prop :=
  ∀ (m1 : Mode) (s : State) (a : Int), s.resolveSrc 1 m1 = .ok a →
    exec (.write m1) s = .next { s with output := s.output ++ [a], cursor := s.cursor + 2, state := .ready }

/-- R160: JT goes to its second operand, unchecked, when the first is not 0. -/
def Obligations.JumpIfTrueSetsTheCursor : Prop :=
  ∀ (m1 m2 : Mode) (s : State) (a b : Int), s.resolveSrc 1 m1 = .ok a → s.resolveSrc 2 m2 = .ok b →
    (a ≠ 0 → exec (.jt m1 m2) s = .next { s with cursor := b, state := .ready }) ∧
    (a = 0 → exec (.jt m1 m2) s = .next { s with cursor := s.cursor + 3, state := .ready })

/-- R161: JF goes to its second operand, unchecked, when the first is 0. -/
def Obligations.JumpIfFalseSetsTheCursor : Prop :=
  ∀ (m1 m2 : Mode) (s : State) (a b : Int), s.resolveSrc 1 m1 = .ok a → s.resolveSrc 2 m2 = .ok b →
    (a = 0 → exec (.jf m1 m2) s = .next { s with cursor := b, state := .ready }) ∧
    (a ≠ 0 → exec (.jf m1 m2) s = .next { s with cursor := s.cursor + 3, state := .ready })

/-- R163 (the spec's decision D17): a taken jump completes with Ready and the target in the cursor, whatever the target; where the
target is outside memory the next RUN faults at fetch with it, and the cursor is still the target. -/
def Obligations.BadJumpTargetFaultsAtTheNextFetch : Prop :=
  ∀ (m1 m2 : Mode) (s : State) (a b : Int), s.resolveSrc 1 m1 = .ok a → s.resolveSrc 2 m2 = .ok b →
    (a ≠ 0 → ∃ t, exec (.jt m1 m2) s = .next t ∧ t.state = .ready ∧ t.cursor = b ∧
      (s.inRange b = false → ∃ u, step t = .next u ∧ u = t.faultedWith .addressOutOfRange b ∧ u.cursor = b)) ∧
    (a = 0 → ∃ t, exec (.jf m1 m2) s = .next t ∧ t.state = .ready ∧ t.cursor = b ∧
      (s.inRange b = false → ∃ u, step t = .next u ∧ u = t.faultedWith .addressOutOfRange b ∧ u.cursor = b))

/-- R170: LT stores 1 or 0 by signed comparison. -/
def Obligations.LessThanStoresTheTruthValue : Prop :=
  ∀ (m1 m2 : Mode) (dst : Nat) (s : State) (a b d : Int), s.mem.wf = true →
    s.resolveSrc 1 m1 = .ok a → s.resolveSrc 2 m2 = .ok b → s.resolveDst 3 = .ok d →
    ∃ t, exec (.lt m1 m2 dst) s = .next t ∧
      (∀ x, t.memRead x = if x = d then .ok (if a < b then 1 else 0) else s.memRead x) ∧
      t = { s with mem := t.mem, cursor := s.cursor + 4, state := .ready }

/-- R171: EQ stores 1 or 0 by equality. -/
def Obligations.EqualsStoresTheTruthValue : Prop :=
  ∀ (m1 m2 : Mode) (dst : Nat) (s : State) (a b d : Int), s.mem.wf = true →
    s.resolveSrc 1 m1 = .ok a → s.resolveSrc 2 m2 = .ok b → s.resolveDst 3 = .ok d →
    ∃ t, exec (.eq m1 m2 dst) s = .next t ∧
      (∀ x, t.memRead x = if x = d then .ok (if a = b then 1 else 0) else s.memRead x) ∧
      t = { s with mem := t.mem, cursor := s.cursor + 4, state := .ready }

/-- R180: HALT only sets `state`. -/
def Obligations.HaltSetsHalted : Prop :=
  ∀ s : State, exec .halt s = .next { s with state := .halted }

/-- R114: every parameter is resolved, in order, before anything else; the first that fails is the fault, for a jump that is not
taken and for a READ of an empty queue too. -/
def Obligations.FirstBadParameterFaults : Prop :=
  ∀ (m1 m2 : Mode) (dst : Nat) (s : State) (x : Int), s.state ≠ .faulted →
    (s.resolveSrc 1 m1 = .error x →
      ∀ i ∈ [Instr.add m1 m2 dst, .mul m1 m2 dst, .lt m1 m2 dst, .eq m1 m2 dst, .write m1, .jt m1 m2, .jf m1 m2],
        exec i s = .next (s.faultedWith .addressOutOfRange x)) ∧
    (∀ a, s.resolveSrc 1 m1 = .ok a → s.resolveSrc 2 m2 = .error x →
      ∀ i ∈ [Instr.add m1 m2 dst, .mul m1 m2 dst, .lt m1 m2 dst, .eq m1 m2 dst, .jt m1 m2, .jf m1 m2],
        exec i s = .next (s.faultedWith .addressOutOfRange x)) ∧
    (∀ a b, s.resolveSrc 1 m1 = .ok a → s.resolveSrc 2 m2 = .ok b → s.resolveDst 3 = .error x →
      ∀ i ∈ [Instr.add m1 m2 dst, .mul m1 m2 dst, .lt m1 m2 dst, .eq m1 m2 dst],
        exec i s = .next (s.faultedWith .addressOutOfRange x)) ∧
    (s.resolveDst 1 = .error x → exec (.read dst) s = .next (s.faultedWith .addressOutOfRange x))

/-! ## Frames -/

/-- What ADD, MUL, LT and EQ leave unchanged when they give a next state (R38, R120). The one cell they may write is the address
`resolveDst 3` gives; where it gives none they fault and write none. -/
def Obligations.StoringInstructionFrame : Prop :=
  ∀ (m1 m2 : Mode) (dst : Nat) (s t : State),
    ∀ i ∈ [Instr.add m1 m2 dst, .mul m1 m2 dst, .lt m1 m2 dst, .eq m1 m2 dst], exec i s = .next t →
      t.memLen = s.memLen ∧ t.input = s.input ∧ t.output = s.output ∧
      (∀ d, s.resolveDst 3 = .ok d → ∀ x, x ≠ d → t.memRead x = s.memRead x) ∧
      (∀ y, s.resolveDst 3 = .error y → ∀ x, t.memRead x = s.memRead x) ∧
      (t.state ≠ .faulted → t.faultCode = s.faultCode ∧ t.faultInfo = s.faultInfo) ∧
      (t.state = .faulted → t.cursor = s.cursor ∧ ∀ x, t.memRead x = s.memRead x)

/-- What READ leaves unchanged: all but one cell, `input`, the cursor and `state`; on a fault all but `state` and the fault
registers. -/
def Obligations.ReadFrame : Prop :=
  ∀ (dst : Nat) (s t : State), exec (.read dst) s = .next t →
    t.memLen = s.memLen ∧ t.output = s.output ∧ (t.input = s.input ∨ t.input = s.input.tail) ∧
    (∀ d, s.resolveDst 1 = .ok d → ∀ x, x ≠ d → t.memRead x = s.memRead x) ∧
    (∀ y, s.resolveDst 1 = .error y → ∀ x, t.memRead x = s.memRead x) ∧
    (t.state ≠ .faulted → t.faultCode = s.faultCode ∧ t.faultInfo = s.faultInfo) ∧
    (t.state = .faulted ∨ t.state = .waiting →
      t.cursor = s.cursor ∧ t.input = s.input ∧ ∀ x, t.memRead x = s.memRead x)

/-- What WRITE, JT, JF and HALT leave unchanged: all of memory and `input`; and `output` but for WRITE. -/
def Obligations.NonStoringInstructionFrame : Prop :=
  ∀ (m1 m2 : Mode) (s t : State),
    ∀ i ∈ [Instr.write m1, .jt m1 m2, .jf m1 m2, .halt], exec i s = .next t →
      t.mem = s.mem ∧ t.memLen = s.memLen ∧ t.input = s.input ∧ (∀ x, t.memRead x = s.memRead x) ∧
      (i ≠ .write m1 → t.output = s.output) ∧
      (t.state ≠ .faulted → t.faultCode = s.faultCode ∧ t.faultInfo = s.faultInfo) ∧
      (t.state = .faulted → t.cursor = s.cursor ∧ t.output = s.output)

/-! ## Host commands -/

/-- R197 (the spec's decision D19): PEEK. -/
def Obligations.PeekReadsOrFaults : Prop :=
  ∀ (W : Width) (s : State) (a : Int), W.fits a = true →
    (s.inRange a = true → command W (.peek a) s = .next (s, .okValue (s.cell a))) ∧
    (s.inRange a = false → s.state ≠ .faulted →
      command W (.peek a) s = .next (s.faultedWith .addressOutOfRange a, .error)) ∧
    (s.inRange a = false → s.state = .faulted → command W (.peek a) s = .next (s, .error))

/-- R198 (the spec's decision D19): POKE, and the round trip with PEEK in every state. -/
def Obligations.PokeWritesOrFaults : Prop :=
  ∀ (W : Width) (s : State) (a v : Int), s.mem.wf = true → W.fits a = true → W.fits v = true →
    (s.inRange a = true → ∃ t, command W (.poke a v) s = .next (t, .ok) ∧ t = { s with mem := t.mem } ∧
      (∀ x, t.memRead x = if x = a then .ok v else s.memRead x) ∧ command W (.peek a) t = .next (t, .okValue v)) ∧
    (s.inRange a = false → s.state ≠ .faulted →
      command W (.poke a v) s = .next (s.faultedWith .addressOutOfRange a, .error)) ∧
    (s.inRange a = false → s.state = .faulted → command W (.poke a v) s = .next (s, .error))

/-- R199, R200 (`none` by the spec's decision D20): PUSH_IN and POP_OUT touch one queue and nothing else. R201, R202: GET_STATE
and GET_FAULT answer and change nothing. -/
def Obligations.QueueAndStatusCommands : Prop :=
  (∀ (W : Width) (s : State) (v : Int), W.fits v = true →
    command W (.pushIn v) s = .next ({ s with input := s.input ++ [v] }, .nothing)) ∧
  (∀ (W : Width) (s : State), s.output = [] → command W .popOut s = .next (s, .popped none)) ∧
  (∀ (W : Width) (s : State) (v : Int) (rest : List Int), s.output = v :: rest →
    command W .popOut s = .next ({ s with output := rest }, .popped (some v))) ∧
  ∀ (W : Width) (s : State), command W .getState s = .next (s, .state s.state) ∧
    command W .getFault s = .next (s, .fault s.faultCode s.faultInfo)

/-- R24, R51: nothing but LOAD changes the length of memory. -/
def Obligations.OnlyLoadChangesTheLength : Prop :=
  ∀ (W : Width) (c : Command) (s t : State) (r : Response), (∀ image, c ≠ .load image) → command W c s = .next (t, r) →
    t.memLen = s.memLen

/-- R152: draining gives the values of `output` in the order they were pushed, and leaves the rest of the Machine alone. -/
def Obligations.DrainIsFirstInFirstOut : Prop :=
  (∀ s : State, drain s = (s.output, { s with output := [] })) ∧
  ∀ (vals : List Int) (s : State), feed vals s = { s with input := s.input ++ vals }

/-- R236: a command to one Machine changes no other, and what it does does not depend on the others. -/
def Obligations.MachinesDoNotInterfere : Prop :=
  ∀ (W : Width) (i : Nat) (c : Command) (sys sys' : System) (r : Response), systemCommand W i c sys = .next (sys', r) →
    sys'.length = sys.length ∧ (∀ j, j ≠ i → sys'[j]? = sys[j]?) ∧
    ∀ other : System, other[i]? = sys[i]? →
      ∃ other', systemCommand W i c other = .next (other', r) ∧ other'[i]? = sys'[i]?

/-- R196, at every width: while the Machine is Ready DRIVE issues a RUN and goes on from the state it leaves; it stops at a state that
is not Ready, and does nothing to one that is not Ready. The bound is the model's (log 9), and a larger one answers the same. -/
def Obligations.DriveEndsOutsideReady : Prop :=
  ∀ W : Width,
    (∀ (n : Nat) (s t : State), s.state = .ready → stepAt W s = .next t → drive W (n + 1) s = drive W n t) ∧
    (∀ (n : Nat) (s t : State), drive W n s = some t → t.state ≠ .ready) ∧
    (∀ (n : Nat) (s : State), s.state ≠ .ready → drive W n s = some s) ∧
    ∀ (n m : Nat) (s t : State), drive W n s = some t → n ≤ m → drive W m s = some t

/-- R209: the first Machine of a seeded Topology starts with its configuration value and the seed, every other with its
configuration value, each from its own copy of the image. -/
def Obligations.SeededTopologyInputs : Prop :=
  ∀ (image : List Int) (seed c : Int) (cs : List Int),
    seeded image seed (c :: cs) =
      { State.ofImage image with input := [c, seed] } :: cs.map fun d => { State.ofImage image with input := [d] }

/-- R210, R213: a stage that is driven to Halted is drained and its values are fed to the next stage; the result is the last value
the last stage gave (in an empty Topology, where there is none, the model's choice: log 15); and a linear pipeline that finishes has
run every Machine to Halted, so none of them Faulted or starved. The bound on each DRIVE is the model's (log 9). -/
def Obligations.FinishedPipelineHaltsEveryMachine : Prop :=
  (∀ (W : Width) (fuel : Nat) (carry : List Int) (m t : State) (rest : Topology),
    drive W fuel (feed carry m) = some t → t.state = .halted →
    linearFrom W fuel carry (m :: rest) = (linearFrom W fuel t.output rest).cons { t with output := [] }) ∧
  (∀ (W : Width) (fuel : Nat) (carry : List Int), linearFrom W fuel carry [] = .finished carry.getLast? []) ∧
  ∀ (W : Width) (fuel : Nat) (ms ms' : Topology) (r : Option Int), linearPipeline W fuel ms = .finished r ms' →
    ms'.length = ms.length ∧ ∀ m ∈ ms', m.state = .halted ∧ m.output = []

/-! ## The loader -/

/-- R191, R192: a comma separates tokens, whose words keep their order, and a token that does not parse leaves no gap. -/
def Obligations.ParseGoesTokenByToken : Prop :=
  ∀ (W : Width) (x y : List Char),
    parseChars W (x ++ ',' :: y) = parseChars W x ++ parseChars W y ∧
    (',' ∉ x → tokenWord W x = none → parseChars W (x ++ ',' :: y) = parseChars W y)

/-- R191, R192, at every width: one or more decimal digits, leading zeros allowed, with whitespace around them and at most one `-`
before them, are one word if their value is in the range and none if not; every other token gives no word. In particular the empty
token and one of whitespace, one with any character but whitespace, `-` and the ten digits (a `+`, a letter, a point), one with
whitespace inside, one with a `-` that is not in front, and one with a `-` and no digit after it. -/
def Obligations.ParseReadsDecimalLiterals : Prop :=
  (∀ (W : Width) (before after : List Char) (zeros n : Nat),
    (∀ c ∈ before, isSpace c = true) → (∀ c ∈ after, isSpace c = true) →
    parseChars W (before ++ (List.replicate zeros '0' ++ Nat.toDigits 10 n) ++ after) =
      (if W.fits n then [(n : Int)] else []) ∧
    parseChars W (before ++ '-' :: (List.replicate zeros '0' ++ Nat.toDigits 10 n) ++ after) =
      if W.fits (-n) then [-(n : Int)] else []) ∧
  (∀ (W : Width) (x : List Char), ',' ∉ x →
    (∀ (before after : List Char) (zeros n : Nat), (∀ c ∈ before, isSpace c = true) → (∀ c ∈ after, isSpace c = true) →
      x ≠ before ++ (List.replicate zeros '0' ++ Nat.toDigits 10 n) ++ after ∧
      x ≠ before ++ '-' :: (List.replicate zeros '0' ++ Nat.toDigits 10 n) ++ after) →
    parseChars W x = []) ∧
  (∀ (W : Width) (x : List Char), (∀ c ∈ x, isSpace c = true) → parseChars W x = []) ∧
  (∀ (W : Width) (x : List Char) (c : Char), ',' ∉ x → c ∈ x → isSpace c = false →
    c ∉ ['-', '0', '1', '2', '3', '4', '5', '6', '7', '8', '9'] → parseChars W x = []) ∧
  (∀ (W : Width) (x y : List Char) (c d e : Char), ',' ∉ x ++ d :: y → c ∈ x → isSpace c = false → isSpace d = true → e ∈ y →
    isSpace e = false → parseChars W (x ++ d :: y) = []) ∧
  (∀ (W : Width) (x y : List Char) (c : Char), ',' ∉ x ++ '-' :: y → c ∈ x → isSpace c = false →
    parseChars W (x ++ '-' :: y) = []) ∧
  ∀ (W : Width) (x y : List Char), (∀ c ∈ x, isSpace c = true) → (∀ c ∈ y, isSpace c = true) →
    parseChars W (x ++ '-' :: y) = []

/-! ## Invariants -/

/-- R35 and the ranges of R7, R22 to R30: every RUN keeps the invariant of a Machine of the machine's width. -/
def Obligations.RunKeepsTheInvariant : Prop :=
  ∀ s t : State, s.Inv Config.width → step s = .next t → t.Inv Config.width

/-- The invariant holds after reset, at every width (log 4 for the image of State.reset). -/
def Obligations.ResetMeetsTheInvariant : Prop := ∀ W : Width, State.reset.Inv W

/-- R35 and the ranges of R7, R22 to R30, at every width: from every state that meets the invariant, every command that answers leaves
one that meets it; every image that LOAD accepts gives one; so it holds in every state reachable from a LOAD by the commands. -/
def Obligations.EveryCommandKeepsTheInvariant : Prop :=
  (∀ (W : Width) (c : Command) (s t : State) (r : Response), s.Inv W → command W c s = .next (t, r) → t.Inv W) ∧
  (∀ (W : Width) (image : List Int), image.length ≤ Config.memMax W → (∀ v ∈ image, W.fits v = true) →
    (State.ofImage image).Inv W) ∧
  ∀ (W : Width) (s : State), Reachable W s → s.Inv W

/-! ## The width -/

/-- R6: the machine is the one of width 64 (the spec's default, log 1), and with `W = ∞` "the ArithmeticOverflow fault ... can never
occur". -/
def Obligations.MachineIsOfWidth64AndTheUnboundedNeverOverflows : Prop :=
  (∀ s : State, step s = stepAt (.bits 64) s) ∧
  ∀ s t : State, s.faultCode ≠ .arithmeticOverflow → stepAt .unbounded s = .next t → t.faultCode ≠ .arithmeticOverflow

/-- R6, D1: a RUN of width `W` that ends in no overflow is the RUN of the machine with `W = ∞`; one that overflows there would
complete here. -/
def Obligations.EveryWidthRefinesTheUnbounded : Prop :=
  ∀ (W : Width) (s t : State), s.faultCode ≠ .arithmeticOverflow → stepAt W s = .next t →
    (t.faultCode ≠ .arithmeticOverflow → stepAt .unbounded s = .next t) ∧
    (t.faultCode = .arithmeticOverflow → ∃ d r, s.resolveDst 3 = .ok d ∧ W.fits r = false ∧
      stepAt .unbounded s = .next (s.storeAndAdvance d r))
end

