-- ==== Sys2Proof/Laws/Commands.lean ====
section
/-! SUPPORT. What a host command can do, said once (spec/46_host_commands.md R190). -/

namespace Sys2Proof.Machine

/-- A RUN that answers has stepped. -/
theorem run_next {W : Width} {s t : State} {r : Response} (h : run W s = .next (t, r)) : stepAt W s = .next t ∧ r = .state t.state := by
  unfold run at h
  split at h <;> simp only [Host.Outcome.next.injEq, Prod.mk.injEq, reduceCtorEq] at h
  obtain ⟨rfl, rfl⟩ := h
  exact ⟨‹_›, rfl⟩

/-- A PEEK answers with the Machine as it was, or faulted. -/
theorem peek_cases (a : Int) (s : State) :
    (s.inRange a = true ∧ peek a s = (s, .okValue (s.cell a))) ∨
    (s.inRange a = false ∧ peek a s = (s.faultEntry .addressOutOfRange a, .error)) := by
  cases h : s.inRange a <;> simp [peek, State.memRead, h]

/-- A POKE answers with one cell written, or the Machine faulted. -/
theorem poke_cases (a v : Int) (s : State) :
    (s.inRange a = true ∧ poke a v s = (s.storeCell a v, .ok)) ∨
    (s.inRange a = false ∧ poke a v s = (s.faultEntry .addressOutOfRange a, .error)) := by
  cases h : s.inRange a <;> simp [poke, State.memWrite, h]

/-- What a LOAD that answers has made. -/
theorem load_next {W : Width} {image : List Int} {s : State} {r : Response} (h : load W image = .next (s, r)) :
    image.length ≤ Config.memMax W ∧ allWords W image = true ∧ s = State.ofImage image ∧ r = .nothing := by
  unfold load at h
  split at h
  · simp at h
  · split at h <;> simp only [Host.Outcome.next.injEq, Prod.mk.injEq, reduceCtorEq] at h
    exact ⟨by omega, ‹_›, h.1.symm, h.2.symm⟩

/-- What any other command that answers has done: a RUN, a fault at a bad address, one cell, one queue, or nothing. -/
theorem command_next {W : Width} {c : Command} {s t : State} {r : Response} (hc : ∀ image, c ≠ .load image)
    (h : command W c s = .next (t, r)) :
    (c = .run ∧ stepAt W s = .next t) ∨
    (∃ a, s.inRange a = false ∧ W.fits a = true ∧ (c = .peek a ∨ ∃ v, c = .poke a v) ∧
      t = s.faultEntry .addressOutOfRange a) ∨
    (∃ a v, c = .poke a v ∧ s.inRange a = true ∧ W.fits v = true ∧ t = s.storeCell a v) ∨
    (∃ v, c = .pushIn v ∧ W.fits v = true ∧ t = s.pushInput v) ∨
    (c = .popOut ∧ t = s.dropOutput) ∨ t = s := by
  cases c with
  | load image => exact absurd rfl (hc image)
  | run => exact .inl ⟨rfl, (run_next h).1⟩
  | peek a =>
    simp only [command, withWord] at h
    split at h
    · obtain ⟨-, hp⟩ | ⟨hi, hp⟩ := peek_cases a s <;> simp only [hp, Host.Outcome.next.injEq, Prod.mk.injEq] at h
      · simp [h.1]
      · exact .inr (.inl ⟨a, hi, ‹_›, .inl rfl, h.1.symm⟩)
    · simp at h
  | poke a v =>
    simp only [command, withWord] at h
    split at h
    · split at h
      · obtain ⟨hi, hp⟩ | ⟨hi, hp⟩ := poke_cases a v s <;> simp only [hp, Host.Outcome.next.injEq, Prod.mk.injEq] at h
        · exact .inr (.inr (.inl ⟨a, v, rfl, hi, ‹_›, h.1.symm⟩))
        · exact .inr (.inl ⟨a, hi, ‹_›, .inr ⟨v, rfl⟩, h.1.symm⟩)
      · simp at h
    · simp at h
  | pushIn v =>
    simp only [command, withWord] at h
    split at h
    · simp only [Host.Outcome.next.injEq, Prod.mk.injEq] at h
      exact .inr (.inr (.inr (.inl ⟨v, rfl, ‹_›, h.1.symm⟩)))
    · simp at h
  | popOut =>
    simp only [command, popOut] at h
    split at h <;> simp only [Host.Outcome.next.injEq, Prod.mk.injEq] at h <;> simp [h.1]
  | getState =>
    simp only [command, Host.Outcome.next.injEq, Prod.mk.injEq] at h
    simp [h.1]
  | getFault =>
    simp only [command, Host.Outcome.next.injEq, Prod.mk.injEq] at h
    simp [h.1]

end Sys2Proof.Machine
end

