-- ==== Sys2Proof/Laws/Decode.lean ====
section
/-! SUPPORT. What each format's decoder answers (spec/30_encoding.md R84): the instruction whose digits it read, or IllegalMode
exactly when a digit is illegal for the format. -/

namespace Sys2Proof.Machine

theorem sourceMode_eq_some {n : Nat} {m : Mode} : sourceMode n = some m ↔ n = m.digit := by
  unfold sourceMode
  split <;> cases m <;> simp_all [Mode.digit]

theorem sourceMode_eq_none {n : Nat} : sourceMode n = none ↔ 1 < n := by
  unfold sourceMode
  split <;> simp_all
  omega

theorem sourceMode_isSome {n : Nat} (h : n ≤ 1) : ∃ m, sourceMode n = some m :=
  Option.ne_none_iff_exists'.1 fun h' => by have := sourceMode_eq_none.1 h'; omega

theorem Mode.digit_le (m : Mode) : m.digit ≤ 1 := by cases m <;> decide

/-- A digit is at most 9. -/
theorem digit_le (w k : Nat) : digit w k ≤ 9 := by
  unfold digit
  omega

/-- The value of a number from its low digits (spec/30_encoding.md R82). -/
theorem digits_sum (w : Nat) :
    w = 100000 * highDigits w + 10000 * digit w 4 + 1000 * digit w 3 + 100 * digit w 2 + w % 100 := by
  simp only [digit, highDigits]
  omega

theorem decodeSSD_eq_ok {mk : Mode → Mode → Nat → Instr} {w : Nat} {i : Instr} :
    decodeSSD mk w = .ok i ↔
      ∃ m1 m2, digit w 2 = m1.digit ∧ digit w 3 = m2.digit ∧ highDigits w = 0 ∧ mk m1 m2 (digit w 4) = i := by
  unfold decodeSSD
  cases h1 : sourceMode (digit w 2) <;> cases h2 : sourceMode (digit w 3)
  case some.some a b =>
    by_cases hh : highDigits w = 0 <;> simp [hh, ← sourceMode_eq_some, h1, h2]
  all_goals simp [← sourceMode_eq_some, h1, h2]

theorem decodeD_eq_ok {mk : Nat → Instr} {w : Nat} {i : Instr} :
    decodeD mk w = .ok i ↔ digit w 3 = 0 ∧ digit w 4 = 0 ∧ highDigits w = 0 ∧ mk (digit w 2) = i := by
  unfold decodeD
  split <;> simp_all

theorem decodeS_eq_ok {mk : Mode → Instr} {w : Nat} {i : Instr} :
    decodeS mk w = .ok i ↔
      ∃ m1, digit w 2 = m1.digit ∧ digit w 3 = 0 ∧ digit w 4 = 0 ∧ highDigits w = 0 ∧ mk m1 = i := by
  unfold decodeS
  cases h1 : sourceMode (digit w 2)
  · simp [← sourceMode_eq_some, h1]
  · simp only [← sourceMode_eq_some, h1]
    split <;> simp_all

theorem decodeSS_eq_ok {mk : Mode → Mode → Instr} {w : Nat} {i : Instr} :
    decodeSS mk w = .ok i ↔
      ∃ m1 m2, digit w 2 = m1.digit ∧ digit w 3 = m2.digit ∧ digit w 4 = 0 ∧ highDigits w = 0 ∧ mk m1 m2 = i := by
  unfold decodeSS
  cases h1 : sourceMode (digit w 2) <;> cases h2 : sourceMode (digit w 3)
  case some.some a b =>
    simp only [← sourceMode_eq_some, h1, h2]
    split <;> simp_all
  all_goals simp [← sourceMode_eq_some, h1, h2]

theorem decodeZ_eq_ok {i j : Instr} {w : Nat} :
    decodeZ i w = .ok j ↔ digit w 2 = 0 ∧ digit w 3 = 0 ∧ digit w 4 = 0 ∧ highDigits w = 0 ∧ i = j := by
  unfold decodeZ
  split <;> simp_all

theorem decodeSSD_eq_error {mk : Mode → Mode → Nat → Instr} {w : Nat} {r : Reject} :
    decodeSSD mk w = .error r ↔ Reject.illegalMode = r ∧ Format.ssd.digitsLegal w = false := by
  unfold decodeSSD
  cases h1 : sourceMode (digit w 2) <;> cases h2 : sourceMode (digit w 3)
  case some.some a b =>
    have h1 := sourceMode_eq_some.1 h1 ▸ Mode.digit_le a
    have h2 := sourceMode_eq_some.1 h2 ▸ Mode.digit_le b
    by_cases hh : highDigits w = 0 <;> simp [Format.digitsLegal, *]
  all_goals
    rw [sourceMode_eq_none] at *
    simp [Format.digitsLegal, Nat.not_le.2, *]

theorem decodeD_eq_error {mk : Nat → Instr} {w : Nat} {r : Reject} :
    decodeD mk w = .error r ↔ Reject.illegalMode = r ∧ Format.d.digitsLegal w = false := by
  unfold decodeD
  split <;> simp [Format.digitsLegal, *]

theorem decodeS_eq_error {mk : Mode → Instr} {w : Nat} {r : Reject} :
    decodeS mk w = .error r ↔ Reject.illegalMode = r ∧ Format.s.digitsLegal w = false := by
  unfold decodeS
  cases h1 : sourceMode (digit w 2) with
  | none => simp [Format.digitsLegal, Nat.not_le.2 (sourceMode_eq_none.1 h1)]
  | some m =>
    have h1 := sourceMode_eq_some.1 h1 ▸ Mode.digit_le m
    simp only []
    split <;> simp [Format.digitsLegal, *]

theorem decodeSS_eq_error {mk : Mode → Mode → Instr} {w : Nat} {r : Reject} :
    decodeSS mk w = .error r ↔ Reject.illegalMode = r ∧ Format.ss.digitsLegal w = false := by
  unfold decodeSS
  cases h1 : sourceMode (digit w 2) <;> cases h2 : sourceMode (digit w 3)
  case some.some a b =>
    have h1 := sourceMode_eq_some.1 h1 ▸ Mode.digit_le a
    have h2 := sourceMode_eq_some.1 h2 ▸ Mode.digit_le b
    simp only []
    split <;> simp [Format.digitsLegal, *]
  all_goals
    rw [sourceMode_eq_none] at *
    simp [Format.digitsLegal, Nat.not_le.2, *]

theorem decodeZ_eq_error {i : Instr} {w : Nat} {r : Reject} :
    decodeZ i w = .error r ↔ Reject.illegalMode = r ∧ Format.z.digitsLegal w = false := by
  unfold decodeZ
  split <;> simp [Format.digitsLegal, *]

/-- What a negative word decodes to (spec/30_encoding.md R92). -/
theorem decode_of_neg {w : Int} (h : w < 0) : decode w = .error .illegalOpcode := by simp [decode, h]

/-- What any other word decodes to. -/
theorem decode_natCast (n : Nat) : decode (n : Int) = decodeNat n := by simp [decode]

end Sys2Proof.Machine
end

