-- ==== Sys2Proof/Tests/Slice0.lean ====
section
/-! SUPPORT. Tests of single steps against the vectors of spec/95_test_vectors.md, and a witness for the hypotheses of every statement
that has hypotheses. -/

namespace Sys2Proof.Tests

open Sys2Proof Sys2Proof.Machine

/-! ## Helpers -/

/-- A Machine loaded with an image and fed some input. -/
def machine (image input : List Int) : State := { State.ofImage image with input := input }

/-- The state an outcome goes to. -/
def next? (r : Result) : Option State :=
  match r with
  | .next t => some t
  | .fault _ => none
  | .refused _ => none

/-- The state and response a command answers. -/
def answer? (r : Answer) : Option (State × Response) :=
  match r with
  | .next p => some p
  | .fault _ => none
  | .refused _ => none

/-- The reason a command was refused. -/
def refusal? (r : Answer) : Option Refusal :=
  match r with
  | .next _ => none
  | .fault _ => none
  | .refused x => some x

/-- What decode gives, as plain data. -/
def decoded (w : Int) : Option Instr ⊕ Reject :=
  match decode w with
  | .ok i => .inl (some i)
  | .error r => .inr r

/-! ## WellFormed and Decode -/

/-- R84: there is no digit 10. One ill-formed term for each check. -/
theorem test_wellFormed_refuses_add : (Instr.add .position .position 10).wellFormed = false := by decide
theorem test_wellFormed_refuses_mul : (Instr.mul .immediate .position 10).wellFormed = false := by decide
theorem test_wellFormed_refuses_read : (Instr.read 10).wellFormed = false := by decide
theorem test_wellFormed_refuses_lt : (Instr.lt .position .immediate 10).wellFormed = false := by decide
theorem test_wellFormed_refuses_eq : (Instr.eq .immediate .immediate 10).wellFormed = false := by decide
/-- R88: the digit 9 of a destination is accepted. -/
theorem test_wellFormed_accepts : (Instr.read 9).wellFormed = true ∧ (Instr.write .position).wellFormed = true := by decide

/-- DEC3, DEC6: `m2 = 1`, and the destination digit kept apart. -/
theorem test_decode_add : decoded 1001 = .inl (some (.add .position .immediate 0)) ∧
    decoded 21001 = .inl (some (.add .position .immediate 2)) := by decide
/-- DEC8. -/
theorem test_decode_mul : decoded 1002 = .inl (some (.mul .position .immediate 0)) := by decide
/-- DEC11, DEC12. -/
theorem test_decode_read : decoded 903 = .inl (some (.read 9)) ∧ decoded 1003 = .inr .illegalMode := by decide
/-- DEC13 to DEC17. -/
theorem test_decode_write : decoded 4 = .inl (some (.write .position)) ∧ decoded 104 = .inl (some (.write .immediate)) ∧
    decoded 204 = .inr .illegalMode ∧ decoded 1104 = .inr .illegalMode ∧ decoded 10004 = .inr .illegalMode := by decide
/-- DEC18 to DEC20. -/
theorem test_decode_jt : decoded 105 = .inl (some (.jt .immediate .position)) ∧
    decoded 1005 = .inl (some (.jt .position .immediate)) ∧ decoded 10005 = .inr .illegalMode ∧
    decoded 2005 = .inr .illegalMode := by decide
/-- DEC21. -/
theorem test_decode_jf : decoded 106 = .inl (some (.jf .immediate .position)) ∧
    decoded 1106 = .inl (some (.jf .immediate .immediate)) := by decide
/-- DEC22. -/
theorem test_decode_lt : decoded 107 = .inl (some (.lt .immediate .position 0)) ∧
    decoded 1007 = .inl (some (.lt .position .immediate 0)) := by decide
/-- DEC7, DEC23. -/
theorem test_decode_eq : decoded 8 = .inl (some (.eq .position .position 0)) ∧
    decoded 91108 = .inl (some (.eq .immediate .immediate 9)) := by decide
/-- DEC24 to DEC27. -/
theorem test_decode_halt : decoded 99 = .inl (some .halt) ∧ decoded 199 = .inr .illegalMode ∧
    decoded 10099 = .inr .illegalMode ∧ decoded 100099 = .inr .illegalMode := by decide
/-- DEC30 to DEC33. -/
theorem test_decode_illegalOpcode : decoded 0 = .inr .illegalOpcode ∧ decoded 109 = .inr .illegalOpcode ∧
    decoded 250 = .inr .illegalOpcode ∧ decoded (-99) = .inr .illegalOpcode := by decide

/-! ## Steps -/

/-- S2: the sources are read before the instruction word is overwritten. -/
theorem test_add : next? (step (machine [1, 0, 0, 0, 99] [])) =
    some { machine [2, 0, 0, 0, 99] [] with cursor := 4 } := by decide
/-- A8: `WMAX + 1` overflows. -/
theorem test_add_overflow : next? (step (machine [1101, 9223372036854775807, 1, 0, 99] [])) =
    some ((machine [1101, 9223372036854775807, 1, 0, 99] []).faultedWith .arithmeticOverflow 1101) := by decide
/-- A2: a negative product. -/
theorem test_mul : next? (step (machine [1102, -5, 3, 0, 99] [])) =
    some { machine [-15, -5, 3, 0, 99] [] with cursor := 4 } := by decide
/-- A12: -2^63 is still a word. -/
theorem test_mul_fits : next? (step (machine [1102, -4294967296, 2147483648, 0, 99] [])) =
    some { machine [-9223372036854775808, -4294967296, 2147483648, 0, 99] [] with cursor := 4 } := by decide
/-- I4: one element is consumed, the front one. -/
theorem test_read : next? (step (machine [3, 0, 99] [42, 43])) =
    some { machine [42, 0, 99] [43] with cursor := 2 } := by decide
/-- I9, F8: the destination is checked before the queue. -/
theorem test_read_bad_destination : next? (step (machine [3, 3, 99] [])) =
    some ((machine [3, 3, 99] []).faultedWith .addressOutOfRange 3) := by decide
/-- I12: Position mode pushes the cell. -/
theorem test_write : next? (step (machine [4, 0, 99] [])) =
    some { machine [4, 0, 99] [] with cursor := 2, output := [4] } := by decide
/-- I14, its third RUN: appended at the back. -/
theorem test_write_back : next? (step { machine [104, -5, 104, 6, 4, 1, 99] [] with cursor := 4, output := [-5, 6] }) =
    some { machine [104, -5, 104, 6, 4, 1, 99] [] with cursor := 6, output := [-5, 6, -5] } := by decide
/-- J5: a target read through Position mode. -/
theorem test_jt : next? (step (machine [5, 4, 3, 7, 1, 99, 0, 99] [])) =
    some { machine [5, 4, 3, 7, 1, 99, 0, 99] [] with cursor := 7 } := by decide
/-- J13: the target is resolved though the jump is not taken. -/
theorem test_jt_eager : next? (step (machine [105, 0, 100, 99] [])) =
    some ((machine [105, 0, 100, 99] []).faultedWith .addressOutOfRange 100) := by decide
/-- J8: taken on 0. -/
theorem test_jf : next? (step (machine [6, 3, 4, 0, 2] [])) =
    some { machine [6, 3, 4, 0, 2] [] with cursor := 2 } := by decide
/-- J7: not taken. -/
theorem test_jf_not_taken : next? (step (machine [1106, 1, 4, 99, 99] [])) =
    some { machine [1106, 1, 4, 99, 99] [] with cursor := 3 } := by decide
/-- CMP1: the comparison is signed. -/
theorem test_lt : next? (step (machine [1107, -1, 0, 0, 99] [])) =
    some { machine [1, -1, 0, 0, 99] [] with cursor := 4 } := by decide
/-- CMP10: an operand out of range is a fault, not the value 0. -/
theorem test_lt_fault : next? (step (machine [7, 0, 100, 0, 99] [])) =
    some ((machine [7, 0, 100, 0, 99] []).faultedWith .addressOutOfRange 100) := by decide
/-- CMP6. -/
theorem test_eq : next? (step (machine [1108, 3, -3, 0, 99] [])) =
    some { machine [0, 3, -3, 0, 99] [] with cursor := 4 } := by decide
/-- CMP8: a cell equals itself. -/
theorem test_eq_self : next? (step (machine [8, 0, 0, 0, 99] [])) =
    some { machine [1, 0, 0, 0, 99] [] with cursor := 4 } := by decide
/-- T1. -/
theorem test_halt : next? (step (machine [99, 1, 2] [])) = some { machine [99, 1, 2] [] with state := .halted } := by decide
/-- F3, F4: the order of the checks. -/
theorem test_priority : next? (step (machine [2001, 100, 0, 0] [])) =
      some ((machine [2001, 100, 0, 0] []).faultedWith .illegalMode 2001) ∧
    next? (step (machine [1, 100, 200, 300] [])) =
      some ((machine [1, 100, 200, 300] []).faultedWith .addressOutOfRange 100) := by decide
/-- T3: with `N = 0` the first RUN faults at fetch. -/
theorem test_empty_memory : next? (step State.reset) = some (State.reset.faultedWith .addressOutOfRange 0) := by decide

/-! ## The host's words -/

/-- The bits of 1002 as the table numbers them, and a first word with bit 63 set, which is negative. -/
theorem test_decodeTableWord : decodeTableWord 24 1002 = some (.mul .position .immediate 0) ∧
    decodeTableWord 64 (2 ^ 64 - 99) = none := by decide
/-- The instruction placed after reset is the one that runs: JT with both parameter words 0 and `mem[0] = 5` jumps to 5. -/
theorem test_withFetchWord : (next? (step (State.reset.withFetchWord 24 5))).map State.cursor = some 5 ∧
    (next? (step (State.reset.withFetchWord 24 99))).map State.state = some .halted := by decide

/-! ## The loader and the host commands -/

/-- H1b. -/
theorem test_parse : parseChars Config.width (" 3 , 9,\n8,9 ,10,9,4,9,99,-1,8\n".toList) =
    [3, 9, 8, 9, 10, 9, 4, 9, 99, -1, 8] := by decide
/-- H1c to H1f: tokens that are dropped. -/
theorem test_parse_drops : parseChars Config.width ("1,x,2,,3,".toList) = [1, 2, 3] ∧
    parseChars Config.width ("1 2,3".toList) = [3] ∧ parseChars Config.width ("+5,5".toList) = [5] ∧
    parseChars Config.width (" -0 ,007".toList) = [0, 7] := by decide
/-- R6, R191: the word range of another width, 18 bits. -/
theorem test_parse_width : parseChars (.bits 18) ("131071,131072,-131072,-131073".toList) = [131071, -131072] := by decide
/-- R6, D26: a word of 64 bits that is none of 18. -/
theorem test_width_of_commands : refusal? (command (.bits 18) (.pushIn 131072) (machine [99] [])) = some .notAWord ∧
    answer? (command .unbounded (.pushIn (2 ^ 63)) (machine [99] [])) = some (machine [99] [2 ^ 63], .nothing) := by decide
/-- H1g, H1h: the word range. -/
theorem test_parse_range : parseChars Config.width ("9223372036854775808,1".toList) = [1] ∧
    parseChars Config.width ("-9223372036854775808".toList) = [-9223372036854775808] := by decide
/-- R97 with the listing of S5's first three lines. -/
theorem test_assemble : assemble [.read 12, .jf (.cell 12) (.cell 15), .add (.cell 13) (.cell 14) 13] =
    [3, 12, 6, 12, 15, 1, 13, 14, 13] := by decide
/-- H5: PEEK out of range answers `error` and faults the Machine. -/
theorem test_peek_error : answer? (command Config.width (.peek 5) (machine [1, 4, 4, 0, 99] [])) =
    some ((machine [1, 4, 4, 0, 99] []).faultedWith .addressOutOfRange 5, .error) := by decide
/-- H3. -/
theorem test_poke : answer? (command Config.width (.poke 1 4) (machine [1, 0, 0, 0, 99] [])) =
    some (machine [1, 4, 0, 0, 99] [], .ok) := by decide
/-- H11: a Waiting Machine stays Waiting. -/
theorem test_push : answer? (command Config.width (.pushIn (-12)) { machine [3, 0, 4, 0, 99] [] with state := .waiting }) =
    some ({ machine [3, 0, 4, 0, 99] [-12] with state := .waiting }, .nothing) := by decide
/-- H13. -/
theorem test_pop : answer? (command Config.width .popOut { machine [99] [] with output := [-12, 3] }) =
    some ({ machine [99] [] with output := [3] }, .popped (some (-12))) := by decide
/-- R37: only LOAD before the first LOAD. -/
theorem test_notLoaded : refusal? (slotCommand Config.width .run none) = some .notLoaded := by decide
/-- R209 with the configuration of P4 and the seed 0. -/
theorem test_seeded : (seeded [99] 0 [4, 3, 2]).map State.input = [[4, 0], [3], [2]] := by decide
/-- R212: the search meets every order of the set. -/
theorem test_permutations : permutations [1, 2, 3] =
    [[1, 2, 3], [2, 1, 3], [2, 3, 1], [1, 3, 2], [3, 1, 2], [3, 2, 1]] := by decide

/-- R6: the width of the machine is one the spec allows, and 17 bits are too few for the word 91108. -/
theorem test_width : Config.width.legal = true ∧ (Width.bits 17).legal = false ∧ (Width.bits 17).fits 91108 = false := by decide
/-- R26, R29: the numeric codes. -/
theorem test_codes : ExecState.waiting.code = 0b01 ∧ ExecState.faulted.code = 0b11 ∧
    FaultCode.addressOutOfRange.code = 0b010 ∧ FaultCode.arithmeticOverflow.code = 0b100 := by decide
/-- R241, R256, R267: the ends of a run. -/
theorem test_ends : { machine [99] [] with state := .halted }.succeeded = true ∧
    ((machine [0] []).faultedWith .illegalOpcode 0).over = true ∧
    ((machine [0] []).faultedWith .illegalOpcode 0).succeeded = false ∧
    { machine [3, 0, 99] [] with state := .waiting }.starved = true := by decide

/-! ## Witnesses: states and operands that meet the hypotheses of the statements, clause by clause -/

/-- The words of an ADD of two literals into address `d`, and one more cell. -/
def adder (a b d : Int) : State := machine [1101, a, b, d, 0] []

theorem witness_DecodeOfEncodeIsTheInstruction : (Instr.add .immediate .position 0).wellFormed = true ∧
    (Instr.eq .immediate .immediate 9).wellFormed = true ∧ Instr.halt.wellFormed = true := by decide
theorem witness_DecodableWordIsTheEncoding : decode 91108 = .ok (.eq .immediate .immediate 9) ∧
    decode 1 = .ok (.add .position .position 0) := ⟨rfl, rfl⟩
theorem witness_UnlistedOpcodeFaults_negative :
    (machine [-1] []).state.runs = true ∧ (machine [-1] []).inRange (machine [-1] []).cursor = true ∧
    (machine [-1] []).cell (machine [-1] []).cursor < 0 := by decide
theorem witness_UnlistedOpcodeFaults_unlisted :
    (machine [109] []).state.runs = true ∧ (machine [109] []).inRange (machine [109] []).cursor = true ∧
    (machine [109] []).cell (machine [109] []).cursor % 100 ∉ ([1, 2, 3, 4, 5, 6, 7, 8, 99] : List Int) := by decide
/-- One word of each format: DEC29, DEC12, DEC15, DEC19, DEC25. -/
theorem witness_IllegalDigitFaults : ∀ p ∈ [((2001 : Int), Format.ssd), (1003, .d), (204, .s), (10005, .ss), (199, .z)],
    (machine [p.1] []).state.runs = true ∧ (machine [p.1] []).inRange (machine [p.1] []).cursor = true ∧
    0 ≤ (machine [p.1] []).cell (machine [p.1] []).cursor ∧
    formatOf (((machine [p.1] []).cell (machine [p.1] []).cursor).toNat % 100) = some p.2 ∧
    p.2.digitsLegal ((machine [p.1] []).cell (machine [p.1] []).cursor).toNat = false := by decide
/-- A READ that completes, a JT not taken (J2) and a JF not taken (J7). -/
theorem witness_LengthIsGivenByTheOpcode : decode 3 = .ok (.read 0) ∧
    (∃ t, exec (.read 0) (machine [3, 0, 99] [42]) = .next t ∧ t.state = .ready) ∧
    (∃ t, exec (.jt .immediate .immediate) (machine [1105, 0, 4, 99, 99] []) = .next t ∧ t.state = .ready) ∧
    (machine [1105, 0, 4, 99, 99] []).resolveSrc 1 .immediate = .ok 0 ∧
    (∃ t, exec (.jf .immediate .immediate) (machine [1106, 1, 4, 99, 99] []) = .next t ∧ t.state = .ready) ∧
    (machine [1106, 1, 4, 99, 99] []).resolveSrc 1 .immediate ≠ .ok 0 :=
  ⟨rfl, ⟨_, rfl, rfl⟩, ⟨_, rfl, rfl⟩, rfl, ⟨_, rfl, rfl⟩, nofun⟩
theorem witness_DestinationDigitIsIgnored :
    (∃ t, exec (.add .immediate .immediate 2) (adder 1 2 4) = .next t ∧ t.faultCode ≠ .arithmeticOverflow) ∧
    ∃ t, exec (.mul .immediate .immediate 2) (adder 1 2 4) = .next t ∧ t.faultCode ≠ .arithmeticOverflow :=
  ⟨⟨_, rfl, by decide⟩, ⟨_, rfl, by decide⟩⟩
theorem witness_LoadConstructsTheMachine : ([3, 0, 99] : List Int).length ≤ Config.memMax Config.width ∧
    ∀ v ∈ ([3, 0, 99] : List Int), Config.width.fits v = true := ⟨le_memMax (by decide) (by decide), by decide⟩
theorem witness_LoadConstructsTheMachine_empty : ([] : List Int).length ≤ Config.memMax Config.width := Nat.zero_le _
theorem witness_LoadConstructsTheMachine_tooLong :
    Config.memMax Config.width < (List.replicate (Config.memMax Config.width + 1) (0 : Int)).length := by
  rw [List.length_replicate]
  exact Nat.lt_succ_self _
theorem witness_LoadConstructsTheMachine_notAWord : ([2 ^ 63] : List Int).length ≤ Config.memMax Config.width ∧
    Config.width.fits (2 ^ 63) = false := ⟨le_memMax (by decide) (by decide), by decide⟩
theorem witness_OnlyLoadBeforeTheFirstLoad : ∀ image : List Int, Command.run ≠ .load image := nofun
/-- The addresses 0 and `N - 1` are in range, -1 and `N` are not (R264). -/
theorem witness_MemReadChecksTheBounds :
    (∀ a ∈ ([0, 2] : List Int), 0 ≤ a ∧ a < ((machine [3, 0, 99] []).memLen : Int)) ∧
    ∀ a ∈ ([-1, 3] : List Int), a < 0 ∨ ((machine [3, 0, 99] []).memLen : Int) ≤ a := by decide
theorem witness_MemWriteWritesOneCell : (machine [3, 0, 99] []).mem.wf = true := by decide
/-- Parameter word in range at `N - 1`, out of range at `N`; the cell it names in range and not. -/
theorem witness_SourceParameterValue :
    (machine [4, 1] []).inRange ((machine [4, 1] []).cursor + (1 : Nat)) = true ∧
    (machine [4, 1] []).inRange ((machine [4, 1] []).cell ((machine [4, 1] []).cursor + (1 : Nat))) = true ∧
    (machine [4, 2] []).inRange ((machine [4, 2] []).cell ((machine [4, 2] []).cursor + (1 : Nat))) = false ∧
    (machine [4] []).inRange ((machine [4] []).cursor + (1 : Nat)) = false := by decide
theorem witness_RunExecutesTheDecodedInstruction :
    (machine [99] []).state = .ready ∧ { machine [99] [] with state := .waiting }.state = .waiting ∧
    (machine [99] []).memRead (machine [99] []).cursor = .ok 99 ∧ decode 99 = .ok .halt := ⟨rfl, rfl, rfl, rfl⟩
/-- J10 and J11: a negative cursor, and the cursor `N`. -/
theorem witness_FetchOutsideMemoryFaults :
    { machine [1105, 1, -3, 99] [] with cursor := -3 }.cursor < 0 ∧
    ({ machine [1105, 1, 4, 99] [] with cursor := 4 }.memLen : Int) ≤
      { machine [1105, 1, 4, 99] [] with cursor := 4 }.cursor := by decide
/-- Both arms of the match: F3 faults, I1 does not. -/
theorem witness_RunFaultsByThePriorityTable :
    (machine [2001, 100, 0, 0] []).priorityFault = some (.illegalMode, 2001) ∧
    (machine [3, 0, 99] []).priorityFault = none := by decide
theorem witness_FaultsArePrecise : ∃ t, step (machine [3, 3, 99] []) = .next t ∧ t.state = .faulted := ⟨_, rfl, rfl⟩
/-- H8: the commands of a Faulted Machine, a POKE among them. -/
theorem witness_FaultedIsLeftOnlyByLoad : (∀ image : List Int, Command.poke 0 7 ≠ .load image) ∧
    ((machine [1] []).faultedWith .addressOutOfRange 5).state = .faulted ∧
    ∃ p, command Config.width (.poke 0 7) ((machine [1] []).faultedWith .addressOutOfRange 5) = .next p := ⟨nofun, rfl, _, rfl⟩
/-- H5 on a Halted Machine. -/
theorem witness_HaltedIsLeftOnlyByABadAddress : (∀ image : List Int, Command.peek 5 ≠ .load image) ∧
    ∃ p, command Config.width (.peek 5) { machine [99] [] with state := .halted } = .next p ∧ p.1.state ≠ .halted :=
  ⟨nofun, _, rfl, by decide⟩
theorem witness_WaitingIsABlockedRead : ∃ t, step (machine [3, 0, 99] []) = .next t ∧ t.state = .waiting := ⟨_, rfl, rfl⟩
theorem witness_OnlyTheWord99Halts : ∃ t, step (machine [99] []) = .next t ∧ t.state = .halted := ⟨_, rfl, rfl⟩
theorem witness_StateTransitionTable : (machine [104, 0, 99] []).memRead (machine [104, 0, 99] []).cursor = .ok 104 ∧
    decode 104 = .ok (.write .immediate) ∧ ∃ t, step (machine [104, 0, 99] []) = .next t ∧ t.state ≠ .faulted :=
  ⟨rfl, rfl, _, rfl, by decide⟩
/-- A9 and A8: the sum `WMAX` fits, the sum `WMAX + 1` does not. -/
theorem witness_AddStoresTheExactSum : (adder (2 ^ 63 - 1) 0 4).mem.wf = true ∧
    (adder (2 ^ 63 - 1) 0 4).resolveSrc 1 .immediate = .ok (2 ^ 63 - 1) ∧
    (adder (2 ^ 63 - 1) 0 4).resolveSrc 2 .immediate = .ok 0 ∧ (adder (2 ^ 63 - 1) 0 4).resolveDst 3 = .ok 4 ∧
    (adder (2 ^ 63 - 1) 1 4).resolveSrc 2 .immediate = .ok 1 ∧
    ((2 ^ 63 - 1 : Int) + 0 < 2 ^ 63) ∧ ((2 ^ 63 : Int) ≤ 2 ^ 63 - 1 + 1) := ⟨rfl, rfl, rfl, rfl, rfl, by decide, by decide⟩
/-- A12 and A11: the product -2^63 fits, the product 2^63 does not. -/
theorem witness_MulStoresTheExactProduct : (adder (-(2 ^ 32)) (2 ^ 31) 0).mem.wf = true ∧
    (adder (-(2 ^ 32)) (2 ^ 31) 0).resolveSrc 1 .immediate = .ok (-(2 ^ 32)) ∧
    (adder (2 ^ 32) (2 ^ 31) 0).resolveSrc 1 .immediate = .ok (2 ^ 32) ∧
    (adder (2 ^ 32) (2 ^ 31) 0).resolveSrc 2 .immediate = .ok (2 ^ 31) ∧
    (adder (2 ^ 32) (2 ^ 31) 0).resolveDst 3 = .ok 0 ∧
    (-(2 ^ 63) ≤ (-(2 ^ 32) * 2 ^ 31 : Int)) ∧ ((2 ^ 63 : Int) ≤ 2 ^ 32 * 2 ^ 31) :=
  ⟨rfl, rfl, rfl, rfl, rfl, by decide, by decide⟩
theorem witness_OverflowFaultsWithTheFetchedWord : (adder (2 ^ 63 - 1) 1 4).memRead (adder (2 ^ 63 - 1) 1 4).cursor = .ok 1101 ∧
    (adder (2 ^ 63 - 1) 1 4).resolveSrc 1 .immediate = .ok (2 ^ 63 - 1) ∧
    (adder (2 ^ 63 - 1) 1 4).resolveSrc 2 .immediate = .ok 1 ∧ (adder (2 ^ 63 - 1) 1 4).resolveDst 3 = .ok 4 ∧
    decode 1101 = .ok (.add .immediate .immediate 0) ∧ (Width.bits 64).fits (2 ^ 63 - 1 + 1) = false :=
  ⟨rfl, rfl, rfl, rfl, rfl, by decide⟩
/-- A13 for the other clause. -/
theorem witness_OverflowFaultsWithTheFetchedWord_mul :
    (machine [1102, -(2 ^ 63), -1, 0, 99] []).memRead 0 = .ok 1102 ∧ decode 1102 = .ok (.mul .immediate .immediate 0) ∧
    (machine [1102, -(2 ^ 63), -1, 0, 99] []).resolveSrc 1 .immediate = .ok (-(2 ^ 63)) ∧
    (machine [1102, -(2 ^ 63), -1, 0, 99] []).resolveSrc 2 .immediate = .ok (-1) ∧
    (machine [1102, -(2 ^ 63), -1, 0, 99] []).resolveDst 3 = .ok 0 ∧ (Width.bits 64).fits (-(2 ^ 63) * -1) = false :=
  ⟨rfl, rfl, rfl, rfl, rfl, by decide⟩
/-- A7: the ADD writes 99 over the word after it. -/
theorem witness_StoredWordIsTheNextInstruction : (adder 90 9 4).mem.wf = true ∧
    (adder 90 9 4).resolveSrc 1 .immediate = .ok 90 ∧ (adder 90 9 4).resolveSrc 2 .immediate = .ok 9 ∧
    (adder 90 9 4).resolveDst 3 = .ok ((adder 90 9 4).cursor + 4) ∧ decode (90 + 9) = .ok .halt := ⟨rfl, rfl, rfl, rfl, rfl⟩
theorem witness_ReadStoresTheFrontOfInput : (machine [3, 0, 99] [42, 43]).mem.wf = true ∧
    (machine [3, 0, 99] [42, 43]).resolveDst 1 = .ok 0 ∧ (machine [3, 0, 99] [42, 43]).input = 42 :: [43] := ⟨rfl, rfl, rfl⟩
theorem witness_ReadBlocksOnEmptyInput : (machine [3, 2, 99] []).resolveDst 1 = .ok 2 ∧
    (machine [3, 2, 99] []).input = [] := ⟨rfl, rfl⟩
theorem witness_WriteAppendsToOutput : (machine [4, 0, 99] []).resolveSrc 1 .position = .ok 4 ∧
    (machine [104, -5, 99] []).resolveSrc 1 .immediate = .ok (-5) := ⟨rfl, rfl⟩
/-- J3 and J2: the condition -1 and the condition 0. -/
theorem witness_JumpIfTrueSetsTheCursor : (machine [1105, -1, 4, 99, 99] []).resolveSrc 1 .immediate = .ok (-1) ∧
    (machine [1105, 0, 4, 99, 99] []).resolveSrc 1 .immediate = .ok 0 ∧
    (machine [1105, -1, 4, 99, 99] []).resolveSrc 2 .immediate = .ok 4 := ⟨rfl, rfl, rfl⟩
/-- J8: both parameters in Position mode. -/
theorem witness_JumpIfFalseSetsTheCursor : (machine [6, 3, 4, 0, 2] []).resolveSrc 1 .position = .ok 0 ∧
    (machine [6, 3, 4, 0, 2] []).resolveSrc 2 .position = .ok 2 ∧
    (machine [6, 4, 4, 0, 2] []).resolveSrc 1 .position = .ok 2 := ⟨rfl, rfl, rfl⟩
/-- J10 and J11: the targets -3 and `N`, and the target `N - 1`, which is in range. -/
theorem witness_BadJumpTargetFaultsAtTheNextFetch : (machine [1105, 1, -3, 99] []).resolveSrc 1 .immediate = .ok 1 ∧
    (machine [1105, 1, -3, 99] []).resolveSrc 2 .immediate = .ok (-3) ∧ (machine [1105, 1, -3, 99] []).inRange (-3) = false ∧
    (machine [1106, 0, 4, 99] []).resolveSrc 1 .immediate = .ok 0 ∧
    (machine [1106, 0, 4, 99] []).resolveSrc 2 .immediate = .ok 4 ∧ (machine [1106, 0, 4, 99] []).inRange 4 = false ∧
    (machine [1106, 0, 3, 99] []).resolveSrc 2 .immediate = .ok 3 ∧ (machine [1106, 0, 3, 99] []).inRange 3 = true :=
  ⟨rfl, rfl, rfl, rfl, rfl, rfl, rfl, rfl⟩
/-- CMP1 and CMP3: less, and equal. -/
theorem witness_comparisons : (adder (-1) 0 0).mem.wf = true ∧ (adder (-1) 0 0).resolveSrc 1 .immediate = .ok (-1) ∧
    (adder (-1) 0 0).resolveSrc 2 .immediate = .ok 0 ∧ (adder (-1) 0 0).resolveDst 3 = .ok 0 ∧
    (adder 3 3 0).resolveSrc 1 .immediate = .ok 3 ∧ (adder 3 3 0).resolveSrc 2 .immediate = .ok 3 := ⟨rfl, rfl, rfl, rfl, rfl, rfl⟩
/-- F4, F5, F6 and I9: each parameter in turn is the first that fails. -/
theorem witness_FirstBadParameterFaults :
    (machine [1, 100, 200, 300] []).resolveSrc 1 .position = .error 100 ∧
    (machine [101, 1, 200, 300] []).resolveSrc 1 .immediate = .ok 1 ∧
    (machine [101, 1, 200, 300] []).resolveSrc 2 .position = .error 200 ∧
    (machine [1101, 1, 1, 300] []).resolveSrc 1 .immediate = .ok 1 ∧
    (machine [1101, 1, 1, 300] []).resolveSrc 2 .immediate = .ok 1 ∧
    (machine [1101, 1, 1, 300] []).resolveDst 3 = .error 300 ∧
    (machine [3, 3, 99] []).resolveDst 1 = .error 3 ∧ (machine [3, 3, 99] []).state ≠ .faulted :=
  ⟨rfl, rfl, rfl, rfl, rfl, rfl, rfl, by decide⟩
/-- The storing frame: a store, a destination that fails, and a fault after the destination is known. -/
theorem witness_StoringInstructionFrame :
    (∃ t, exec (.lt .immediate .immediate 0) (adder 1 2 4) = .next t ∧ t.state ≠ .faulted) ∧
    (adder 1 2 4).resolveDst 3 = .ok 4 ∧ (adder 1 2 5).resolveDst 3 = .error 5 ∧
    ∃ t, exec (.add .immediate .immediate 0) (adder (2 ^ 63 - 1) 1 4) = .next t ∧ t.state = .faulted :=
  ⟨⟨_, rfl, by decide⟩, rfl, rfl, ⟨_, rfl, rfl⟩⟩
theorem witness_ReadFrame : (∃ t, exec (.read 0) (machine [3, 0, 99] [42]) = .next t ∧ t.state ≠ .faulted) ∧
    (machine [3, 0, 99] [42]).resolveDst 1 = .ok 0 ∧ (machine [3, 3, 99] []).resolveDst 1 = .error 3 ∧
    ∃ t, exec (.read 0) (machine [3, 0, 99] []) = .next t ∧ t.state = .waiting := ⟨⟨_, rfl, by decide⟩, rfl, rfl, ⟨_, rfl, rfl⟩⟩
theorem witness_NonStoringInstructionFrame :
    (∃ t, exec (.write .position) (machine [4, 0, 99] []) = .next t ∧ t.state ≠ .faulted) ∧
    ∃ t, exec (.write .position) (machine [4, 3, 99] []) = .next t ∧ t.state = .faulted := ⟨⟨_, rfl, by decide⟩, ⟨_, rfl, rfl⟩⟩
/-- PEEK and POKE: addresses 0, `N - 1` in range; -1, `N` not; values at both ends of the word range. -/
theorem witness_PeekReadsOrFaults : (∀ a ∈ ([0, 2, -1, 3] : List Int), Config.width.fits a = true) ∧
    (∀ a ∈ ([0, 2] : List Int), (machine [3, 0, 99] []).inRange a = true) ∧
    ∀ a ∈ ([-1, 3] : List Int), (machine [3, 0, 99] []).inRange a = false := by decide
theorem witness_PokeWritesOrFaults : (machine [3, 0, 99] []).mem.wf = true ∧ Config.width.fits (-(2 ^ 63)) = true ∧
    Config.width.fits (2 ^ 63 - 1) = true := by decide
theorem witness_QueueAndStatusCommands : Config.width.fits (-12) = true ∧ (machine [99] []).output = [] ∧
    { machine [99] [] with output := [-12, 3] }.output = -12 :: [3] := by decide
theorem witness_OnlyLoadChangesTheLength : (∀ image : List Int, Command.run ≠ .load image) ∧
    ∃ p, command Config.width .run (machine [99] []) = .next p := ⟨nofun, _, rfl⟩
theorem witness_MachinesDoNotInterfere : (∃ p, systemCommand Config.width 1 .run [none, some (machine [99] [])] = .next p) ∧
    ([none, some (machine [99] [])] : System)[1]? = ([some State.reset, some (machine [99] []), none] : System)[1]? := ⟨⟨_, rfl⟩, rfl⟩
theorem witness_DriveEndsOutsideReady : (machine [99] []).state = .ready ∧
    stepAt Config.width (machine [99] []) = .next { machine [99] [] with state := .halted } ∧
    drive Config.width 1 (machine [99] []) = some { machine [99] [] with state := .halted } ∧
    { machine [99] [] with state := .halted }.state ≠ .ready := ⟨rfl, rfl, rfl, by decide⟩
theorem witness_FinishedPipelineHaltsEveryMachine :
    drive Config.width 1 (feed [7] (machine [99] [])) = some { machine [99] [7] with state := .halted } ∧
    linearPipeline Config.width 1 [machine [99] []] = .finished none [{ machine [99] [] with state := .halted }] := ⟨rfl, rfl⟩
theorem witness_ParseGoesTokenByToken : ',' ∉ "x".toList ∧ tokenWord Config.width "x".toList = none := by decide
theorem witness_ParseReadsDecimalLiterals : (∀ c ∈ [' ', '\t', '\r', '\n'], isSpace c = true) ∧
    ∀ c ∈ ['+', 'x', '.', ';'], isSpace c = false ∧ c ∉ ['-', '0', '1', '2', '3', '4', '5', '6', '7', '8', '9'] := by
  simp [isSpace]
/-- The hypothesis of the clause for every other token holds of the empty token. -/
theorem witness_ParseReadsDecimalLiterals_other (before after : List Char) (zeros n : Nat) :
    ([] : List Char) ≠ before ++ (List.replicate zeros '0' ++ Nat.toDigits 10 n) ++ after ∧
    ([] : List Char) ≠ before ++ '-' :: (List.replicate zeros '0' ++ Nat.toDigits 10 n) ++ after := by
  simp
/-- H1d `1 2`, and `--1` of H1j: the characters of the clauses for whitespace inside and for a `-` that is not in front. -/
theorem witness_ParseReadsDecimalLiterals_inside : ',' ∉ ['1'] ++ ' ' :: ['2'] ∧ '1' ∈ ['1'] ∧ isSpace '1' = false ∧
    isSpace ' ' = true ∧ '2' ∈ ['2'] ∧ isSpace '2' = false ∧ ',' ∉ ['-'] ++ '-' :: ['1'] ∧ isSpace '-' = false := by decide

/-- The Machine loaded with `3,0,99` and fed two words at the ends of the word range meets the invariant. -/
theorem witness_invariant : (machine [3, 0, 99] [2 ^ 63 - 1, -(2 ^ 63)]).Inv Config.width where
  memCanonical := by decide
  memInside := by decide
  lenBounded := le_memMax (by decide) (by decide)
  cellsFit := by decide
  cursorFits := by decide
  inputFits := by decide
  outputFits := by decide
  infoFits := by decide
  faultedIff := by decide
  infoZero := by decide
theorem witness_RunKeepsTheInvariant : (machine [3, 0, 99] [2 ^ 63 - 1, -(2 ^ 63)]).Inv Config.width ∧
    ∃ t, step (machine [3, 0, 99] [2 ^ 63 - 1, -(2 ^ 63)]) = .next t := ⟨witness_invariant, _, rfl⟩
theorem witness_load : load Config.width [3, 0, 99] = .next (machine [3, 0, 99] [], .nothing) := by
  have h : ¬ Config.memMax Config.width < ([3, 0, 99] : List Int).length := Nat.not_lt.2 (le_memMax (by decide) (by decide))
  have hw : allWords Config.width [3, 0, 99] = true := by decide
  unfold load
  rw [if_neg h, if_pos hw]
  rfl
/-- A command at another width, with a word at the end of that width's range, and an image that LOAD accepts there. -/
theorem witness_EveryCommandKeepsTheInvariant : (machine [3, 0, 99] []).Inv (.bits 18) ∧
    (∃ p, command (.bits 18) (.poke 1 131071) (machine [3, 0, 99] []) = .next p) ∧
    ([3, 0, 99] : List Int).length ≤ Config.memMax (.bits 18) ∧ ∀ v ∈ ([3, 0, 99] : List Int), (Width.bits 18).fits v = true :=
  ⟨{ memCanonical := by decide, memInside := by decide, lenBounded := le_memMax (by decide) (by decide), cellsFit := by decide,
     cursorFits := by decide, inputFits := by decide, outputFits := by decide, infoFits := by decide, faultedIff := by decide,
     infoZero := by decide }, ⟨_, rfl⟩, le_memMax (by decide) (by decide), by decide⟩
/-- Two steps of R35's reachability: a LOAD, then a RUN. -/
theorem witness_EveryCommandKeepsTheInvariant_reachable : Reachable Config.width { machine [3, 0, 99] [] with state := .waiting } :=
  .command (c := .run) (.load witness_load) rfl
theorem witness_MachineIsOfWidth64AndTheUnboundedNeverOverflows : (adder (2 ^ 63 - 1) 1 4).faultCode ≠ .arithmeticOverflow ∧
    ∃ t, stepAt .unbounded (adder (2 ^ 63 - 1) 1 4) = .next t := ⟨by decide, _, rfl⟩
/-- Both clauses at `W = 64`: A9 does not overflow, A8 does. -/
theorem witness_EveryWidthRefinesTheUnbounded :
    (∃ t, stepAt (.bits 64) (adder (2 ^ 63 - 1) 0 4) = .next t ∧ t.faultCode ≠ .arithmeticOverflow) ∧
    ∃ t, stepAt (.bits 64) (adder (2 ^ 63 - 1) 1 4) = .next t ∧ t.faultCode = .arithmeticOverflow :=
  ⟨⟨_, rfl, by decide⟩, ⟨_, rfl, rfl⟩⟩

end Sys2Proof.Tests
end

/-! The invariant of a Machine: every operation of the state keeps it, so every instruction, every RUN and every host command does
(spec/00_scope.md R6, R7; spec/10_state.md R22 to R35). -/

namespace Sys2Proof.Machine

/-! ## The instruction word of a decoded instruction -/

/-- A word without high digits is the encoding of its own digits (R82). -/
theorem encodeDigits_of_digits {w m3 m2 m1 op : Nat} (hop : w % 100 = op) (h1 : digit w 2 = m1) (h2 : digit w 3 = m2)
    (h3 : digit w 4 = m3) (hh : highDigits w = 0) : encodeDigits m3 m2 m1 op = w := by
  have hw := digits_sum w
  unfold encodeDigits
  omega

theorem encode_of_decodeNat {w : Nat} {i : Instr} (h : decodeNat w = .ok i) : encode i = w := by
  unfold decodeNat at h
  split at h
  case h_1 | h_2 | h_7 | h_8 =>
    obtain ⟨m1, m2, h1, h2, hh, rfl⟩ := decodeSSD_eq_ok.1 h
    exact encodeDigits_of_digits ‹_› h1 h2 rfl hh
  case h_3 =>
    obtain ⟨h2, h3, hh, rfl⟩ := decodeD_eq_ok.1 h
    exact encodeDigits_of_digits ‹_› rfl h2 h3 hh
  case h_4 =>
    obtain ⟨m1, h1, h2, h3, hh, rfl⟩ := decodeS_eq_ok.1 h
    exact encodeDigits_of_digits ‹_› h1 h2 h3 hh
  case h_5 | h_6 =>
    obtain ⟨m1, m2, h1, h2, h3, hh, rfl⟩ := decodeSS_eq_ok.1 h
    exact encodeDigits_of_digits ‹_› h1 h2 h3 hh
  case h_9 =>
    obtain ⟨h1, h2, h3, hh, rfl⟩ := decodeZ_eq_ok.1 h
    exact encodeDigits_of_digits ‹_› h1 h2 h3 hh
  case h_10 => nomatch h

/-- A word that decodes is the encoding of the instruction it decodes to, so an overflow records a word of memory. -/
theorem encode_of_decode {w : Int} {i : Instr} (h : decode w = .ok i) : encode i = w := by
  rcases Int.lt_or_le w 0 with hw | hw
  · simp [decode_of_neg hw] at h
  · lift w to Nat using hw
    exact encode_of_decodeNat (decode_natCast w ▸ h)

/-! ## What a parameter can answer -/

/-- A resolved source is a word of memory. -/
theorem State.resolveSrc_ok_cell {s : State} {k : Nat} {m : Mode} {v : Int} (h : s.resolveSrc k m = .ok v) :
    ∃ a, v = s.cell a := by
  obtain ⟨p, hp, ⟨-, rfl⟩ | ⟨-, hv⟩⟩ := State.resolveSrc_eq_ok.1 h
  · exact ⟨_, (State.memRead_eq_ok.1 hp).2.symm⟩
  · exact ⟨_, (State.memRead_eq_ok.1 hv).2.symm⟩

/-- The address at which a source fails is that of its parameter word, or a word of memory. -/
theorem State.resolveSrc_error {s : State} {k : Nat} {m : Mode} {x : Int} (h : s.resolveSrc k m = .error x) :
    x = s.cursor + k ∨ ∃ a, x = s.cell a := by
  unfold State.resolveSrc at h
  split at h
  · rename_i y hy
    obtain rfl : y = x := by simpa using h
    exact .inl (State.memRead_eq_error.1 hy).2.symm
  · rename_i p hp
    cases m with
    | immediate => nomatch h
    | position => exact .inr ⟨_, (State.memRead_eq_error.1 h).2 ▸ (State.memRead_eq_ok.1 hp).2.symm⟩

/-- The address at which a destination fails is that of its parameter word, or a word of memory. -/
theorem State.resolveDst_error {s : State} {k : Nat} {x : Int} (h : s.resolveDst k = .error x) :
    x = s.cursor + k ∨ ∃ a, x = s.cell a := by
  unfold State.resolveDst at h
  split at h
  · rename_i y hy
    obtain rfl : y = x := by simpa using h
    exact .inl (State.memRead_eq_error.1 hy).2.symm
  · rename_i p hp
    split at h
    · nomatch h
    · obtain rfl : p = x := by simpa using h
      exact .inr ⟨_, (State.memRead_eq_ok.1 hp).2.symm⟩

/-! ## What fault entry and a RUN can answer -/

theorem ne_faulted_of_runs {st : ExecState} (h : st.runs = true) : st ≠ .faulted := by
  rintro rfl
  nomatch h

/-- The first fault of a Machine is the one it records (R226). -/
theorem State.faultEntry_faultCode {s : State} (h : s.state ≠ .faulted) (c : FaultCode) (x : Int) :
    (s.faultEntry c x).faultCode = c := by
  rw [State.faultEntry_of_not_faulted h]

@[simp] theorem readInto_faultCode (d : Int) (s : State) : (readInto d s).faultCode = s.faultCode := by
  unfold readInto
  split <;> rfl

/-- RUN of a Halted or Faulted Machine changes nothing (R110). -/
theorem stepAt_of_not_runs {W : Width} {s : State} (hr : s.state.runs = false) : stepAt W s = .next s := by
  simp [stepAt, runWith, hr]

/-- RUN where fetch or decode fails (R112, R113). -/
theorem stepAt_of_fetchDecode_error {W : Width} {s : State} {c : FaultCode} {x : Int} (hr : s.state.runs = true)
    (hf : s.fetchDecode = .error (c, x)) : stepAt W s = .next (s.faultEntry c x) := by
  simp [stepAt, runWith, raise, hr, hf]

/-- RUN where an instruction is decoded (R111). -/
theorem stepAt_of_fetchDecode_ok {W : Width} {s : State} {i : Instr} (hr : s.state.runs = true)
    (hf : s.fetchDecode = .ok i) : stepAt W s = execAt W i s := by
  simp [stepAt, runWith, hr, hf]

/-- Fetch and decode raise no overflow. -/
theorem State.fetchDecode_error_ne_overflow {s : State} {c : FaultCode} {x : Int} (h : s.fetchDecode = .error (c, x)) :
    c ≠ .arithmeticOverflow := by
  obtain ⟨-, rfl, -⟩ | ⟨-, -, r, -, rfl⟩ := State.fetchDecode_eq_error.1 h
  · nofun
  · cases r <;> nofun

/-! ## The invariant and the operations of the state -/

theorem allWords_iff {W : Width} {l : List Int} : allWords W l = true ↔ ∀ v ∈ l, W.fits v = true := List.all_eq_true

namespace State.Inv

variable {W : Width} {s t : State}

/-- Every cell read is a word (R23), an unlisted one among them. -/
theorem cell_fits (hs : s.Inv W) (a : Int) : W.fits (s.cell a) = true := by
  rcases Memory.read_mem_or_zero s.mem a.toNat with h | h
  · exact allWords_iff.1 hs.cellsFit _ (List.mem_map_of_mem h)
  · rw [State.cell, h]
    exact fits_zero W

/-- Fault entry keeps the invariant when it records a fault and a word. -/
theorem faultEntry (hs : s.Inv W) {c : FaultCode} {x : Int} (hc : c ≠ .none) (hx : W.fits x = true) :
    (s.faultEntry c x).Inv W := by
  by_cases h : s.state = .faulted
  · rwa [State.faultEntry_of_faulted h]
  · rw [State.faultEntry_of_not_faulted h]
    exact { hs with infoFits := hx, faultedIff := by simp [hc], infoZero := fun h => absurd h hc }

/-- Storing a word in range keeps the invariant. -/
theorem storeCell (hs : s.Inv W) {d v : Int} (hd : s.inRange d = true) (hv : W.fits v = true) : (s.storeCell d v).Inv W :=
  { hs with
    memCanonical := Memory.write_wf hs.memCanonical d.toNat v
    memInside := Memory.write_below hs.memInside (by have := State.inRange_iff.1 hd; omega) v
    cellsFit := allWords_iff.2 fun x hx => by
      obtain ⟨c, hc, rfl⟩ := List.mem_map.1 hx
      rcases Memory.mem_write hc with hc | rfl
      · exact allWords_iff.1 hs.cellsFit _ (List.mem_map_of_mem hc)
      · exact hv }

/-- A running Machine that is given a word as its cursor and a state other than Faulted meets the invariant. -/
theorem finish (hs : s.Inv W) (hrun : s.state.runs = true) {pc : Int} {st : ExecState} (hpc : W.fits pc = true)
    (hst : st ≠ .faulted) : (s.finish pc st).Inv W :=
  have hcode : s.faultCode = .none := not_not.1 fun h => ne_faulted_of_runs hrun (hs.faultedIff.2 h)
  { hs with cursorFits := hpc, faultedIff := by simp [hst, hcode] }

theorem pushInput (hs : s.Inv W) {v : Int} (hv : W.fits v = true) : (s.pushInput v).Inv W :=
  { hs with inputFits := by simpa [allWords, hv] using hs.inputFits }

theorem pushOutput (hs : s.Inv W) {v : Int} (hv : W.fits v = true) : (s.pushOutput v).Inv W :=
  { hs with outputFits := by simpa [allWords, hv] using hs.outputFits }

theorem dropInput (hs : s.Inv W) : s.dropInput.Inv W :=
  { hs with inputFits := allWords_iff.2 fun v hv => allWords_iff.1 hs.inputFits v (List.mem_of_mem_tail hv) }

theorem dropOutput (hs : s.Inv W) : s.dropOutput.Inv W :=
  { hs with outputFits := allWords_iff.2 fun v hv => allWords_iff.1 hs.outputFits v (List.mem_of_mem_tail hv) }

/-- The Machine LOAD makes of words, no more of them than MEM_MAX, meets the invariant (R34). -/
theorem ofImage {image : List Int} (hlen : image.length ≤ Config.memMax W) (hw : ∀ v ∈ image, W.fits v = true) :
    (State.ofImage image).Inv W where
  memCanonical := Memory.ofImageFrom_wf 0 image
  memInside := List.all_eq_true.2 fun c hc => decide_eq_true (by simpa [State.ofImage] using (Memory.mem_ofImageFrom hc).1)
  lenBounded := hlen
  cellsFit := allWords_iff.2 fun x hx => by
    obtain ⟨c, hc, rfl⟩ := List.mem_map.1 hx
    exact hw _ (Memory.mem_ofImageFrom hc).2
  cursorFits := fits_zero W
  inputFits := rfl
  outputFits := rfl
  infoFits := fits_zero W
  faultedIff := by simp [State.ofImage]
  infoZero := fun _ => rfl

/-- What LOAD answers meets the invariant. -/
theorem load {image : List Int} {r : Response} (h : load W image = .next (s, r)) : s.Inv W := by
  obtain ⟨hlen, hw, rfl, -⟩ := load_next h
  exact ofImage hlen (allWords_iff.1 hw)

/-! ## The invariant and an instruction at a cursor in range -/

/-- What the parameters fail with is a word: the cursor and the three words after it have word addresses (R25). -/
theorem parameter_address_fits (hs : s.Inv W) (hpc : s.inRange s.cursor = true) {k : Nat} (hk : k ≤ 4) {x : Int}
    (h : x = s.cursor + k ∨ ∃ a, x = s.cell a) : W.fits x = true := by
  rcases h with rfl | ⟨a, rfl⟩
  · exact State.cursor_add_fits hs.lenBounded hpc hk
  · exact hs.cell_fits a

/-- A truth value is a word wherever an instruction can be fetched: then MEM_MAX is not 0. -/
theorem truthWord_fits (hs : s.Inv W) (hpc : s.inRange s.cursor = true) (b : Bool) : W.fits (truthWord b) = true := by
  cases b with
  | false => exact fits_zero W
  | true =>
    have hpos : 0 < s.memLen := by have := State.inRange_iff.1 hpc; omega
    exact fits_of_lt_memMax (a := 0) (k := 1) (hpos.trans_le hs.lenBounded) (by decide)

theorem orRaise {α : Type} (hs : s.Inv W) {r : Except Int α} {f : α → Result} (hr : ∀ x, r = .error x → W.fits x = true)
    (hf : ∀ v, r = .ok v → f v = .next t → t.Inv W) (h : orRaise s r f = .next t) : t.Inv W := by
  obtain ⟨x, hx, rfl⟩ | ⟨v, hv, h⟩ := orRaise_next h
  · exact hs.faultEntry nofun (hr x hx)
  · exact hf v hv h

/-- Resolving a source keeps the invariant when what follows does, given a word. -/
theorem orRaise_resolveSrc (hs : s.Inv W) (hpc : s.inRange s.cursor = true) {k : Nat} (hk : k ≤ 4) {m : Mode} {f : Int → Result}
    (hf : ∀ v, W.fits v = true → f v = .next t → t.Inv W) (h : Machine.orRaise s (s.resolveSrc k m) f = .next t) : t.Inv W :=
  hs.orRaise (fun _ hx => hs.parameter_address_fits hpc hk (State.resolveSrc_error hx))
    (fun v hv => hf v (by obtain ⟨a, rfl⟩ := State.resolveSrc_ok_cell hv; exact hs.cell_fits a)) h

/-- Resolving a destination keeps the invariant when what follows does, given an address in range. -/
theorem orRaise_resolveDst (hs : s.Inv W) (hpc : s.inRange s.cursor = true) {k : Nat} (hk : k ≤ 4) {f : Int → Result}
    (hf : ∀ d, s.inRange d = true → f d = .next t → t.Inv W) (h : Machine.orRaise s (s.resolveDst k) f = .next t) : t.Inv W :=
  hs.orRaise (fun _ hx => hs.parameter_address_fits hpc hk (State.resolveDst_error hx))
    (fun d hd => hf d (State.resolveDst_eq_ok.1 hd).2) h

theorem withSSD (hs : s.Inv W) (hpc : s.inRange s.cursor = true) {m1 m2 : Mode} {f : Int → Int → Int → Result}
    (hf : ∀ a b d, s.inRange d = true → f a b d = .next t → t.Inv W) (h : withSSD m1 m2 s f = .next t) : t.Inv W :=
  hs.orRaise_resolveSrc hpc (by decide) (fun a _ =>
    hs.orRaise_resolveSrc hpc (by decide) fun b _ => hs.orRaise_resolveDst hpc (by decide) (hf a b)) h

theorem withSS (hs : s.Inv W) (hpc : s.inRange s.cursor = true) {m1 m2 : Mode} {f : Int → Int → Result}
    (hf : ∀ a b, W.fits b = true → f a b = .next t → t.Inv W) (h : withSS m1 m2 s f = .next t) : t.Inv W :=
  hs.orRaise_resolveSrc hpc (by decide) (fun a _ => hs.orRaise_resolveSrc hpc (by decide) (hf a)) h

section

/-! Each completed effect of an instruction, in a running Machine whose cursor is in range. -/

variable (hs : s.Inv W) (hrun : s.state.runs = true) (hpc : s.inRange s.cursor = true)
include hs hrun hpc

theorem storeAndAdvance {d r : Int} (hd : s.inRange d = true) (hr : W.fits r = true) : (s.storeAndAdvance d r).Inv W :=
  (hs.storeCell hd hr).finish hrun (State.cursor_add_fits hs.lenBounded hpc (k := 4) (by decide)) nofun

theorem storeExact {w r d : Int} (hw : W.fits w = true) (hd : s.inRange d = true) (h : storeExact W w r d s = .next t) :
    t.Inv W := by
  obtain ⟨hr, rfl⟩ | ⟨-, rfl⟩ := storeExact_next h
  · exact hs.storeAndAdvance hrun hpc hd hr
  · exact hs.faultEntry nofun hw

theorem readInto {d : Int} (hd : s.inRange d = true) : (readInto d s).Inv W := by
  unfold Machine.readInto
  split
  · exact hs.finish hrun hs.cursorFits nofun
  · rename_i v vs hin
    have hv : W.fits v = true := allWords_iff.1 hs.inputFits v (by simp [hin])
    exact (hs.dropInput.storeCell hd hv).finish hrun (State.cursor_add_fits hs.lenBounded hpc (k := 2) (by decide)) nofun

theorem jumpIf (taken : Bool) {b : Int} (hb : W.fits b = true) : (jumpIf taken b s).Inv W := by
  refine hs.finish hrun ?_ nofun
  cases taken with
  | true => exact hb
  | false => exact State.cursor_add_fits hs.lenBounded hpc (k := 3) (by decide)

/-- A decoded instruction whose word fits keeps the invariant, at the width it runs at. -/
theorem execAt {i : Instr} (hi : W.fits (encode i) = true) (h : execAt W i s = .next t) : t.Inv W := by
  cases i with
  | add m1 m2 dst | mul m1 m2 dst => exact hs.withSSD hpc (fun a b d hd => hs.storeExact hrun hpc hi hd) h
  | read dst =>
    refine hs.orRaise_resolveDst hpc (by decide) (fun d hd ht => ?_) h
    cases ht
    exact hs.readInto hrun hpc hd
  | write m1 =>
    refine hs.orRaise_resolveSrc hpc (by decide) (fun a ha ht => ?_) h
    cases ht
    exact (hs.pushOutput ha).finish hrun (State.cursor_add_fits hs.lenBounded hpc (k := 2) (by decide)) nofun
  | jt m1 m2 | jf m1 m2 =>
    refine hs.withSS hpc (fun a b hb ht => ?_) h
    cases ht
    exact hs.jumpIf hrun hpc _ hb
  | lt m1 m2 dst | eq m1 m2 dst =>
    refine hs.withSSD hpc (fun a b d hd ht => ?_) h
    cases ht
    exact hs.storeAndAdvance hrun hpc hd (hs.truthWord_fits hpc _)
  | halt =>
    cases h
    exact hs.finish hrun hs.cursorFits nofun

end

/-! ## The invariant and RUN, the commands, the reachable states -/

/-- What fetch or decode fails with is a fault and a word: the cursor, or the word there. -/
theorem fetchDecode_error (hs : s.Inv W) {c : FaultCode} {x : Int} (h : s.fetchDecode = .error (c, x)) :
    c ≠ .none ∧ W.fits x = true := by
  obtain ⟨-, rfl, rfl⟩ | ⟨-, rfl, r, -, rfl⟩ := State.fetchDecode_eq_error.1 h
  · exact ⟨nofun, hs.cursorFits⟩
  · exact ⟨by cases r <;> nofun, hs.cell_fits _⟩

theorem stepAt (hs : s.Inv W) (h : stepAt W s = .next t) : t.Inv W := by
  obtain ⟨-, hst⟩ | ⟨-, c, x, hf, hst⟩ | ⟨hrun, i, hf, hst⟩ := stepAt_cases W s
  · cases hst.symm.trans h
    exact hs
  · cases hst.symm.trans h
    obtain ⟨hc, hx⟩ := hs.fetchDecode_error hf
    exact hs.faultEntry hc hx
  · obtain ⟨hpc, hd⟩ := State.fetchDecode_eq_ok.1 hf
    exact hs.execAt hrun hpc (encode_of_decode hd ▸ hs.cell_fits s.cursor) (hst ▸ h)

theorem command (hs : s.Inv W) {c : Command} {r : Response} (h : command W c s = .next (t, r)) : t.Inv W := by
  by_cases hc : ∃ image, c = .load image
  · obtain ⟨image, rfl⟩ := hc
    exact load h
  · obtain ⟨-, h⟩ | ⟨a, -, ha, -, rfl⟩ | ⟨a, v, -, ha, hv, rfl⟩ | ⟨v, -, hv, rfl⟩ | ⟨-, rfl⟩ | rfl :=
      command_next (not_exists.1 hc) h
    · exact hs.stepAt h
    · exact hs.faultEntry nofun ha
    · exact hs.storeCell ha hv
    · exact hs.pushInput hv
    · exact hs.dropOutput
    · exact hs

end State.Inv

theorem Reachable.inv {W : Width} {s : State} (h : Reachable W s) : s.Inv W := by
  induction h with
  | load h => exact State.Inv.load h
  | command _ h ih => exact ih.command h

/-- Settles O56: `State.Inv.stepAt` at the machine's width. -/
theorem runKeepsTheInvariant : Obligations.RunKeepsTheInvariant :=
  fun s _ hs h => hs.stepAt (step_eq_stepAt s ▸ h)

/-- Settles O58: the step lemma for the commands, the image of a LOAD, and the induction over reachability. -/
theorem everyCommandKeepsTheInvariant : Obligations.EveryCommandKeepsTheInvariant :=
  ⟨fun _ _ _ _ _ hs h => hs.command h, fun _ _ hlen hw => State.Inv.ofImage hlen hw, fun _ _ h => h.inv⟩

end Sys2Proof.Machine

/-! A RUN at a finite width against the RUN of `W = ∞` (spec/00_scope.md R6): the width is read by the overflow check of ADD and MUL
and by nothing else. -/

namespace Sys2Proof.Machine

/-- How the answer `u` of the unbounded width goes with the state `t` that width `W` gives from `s`: no overflow and the same state,
or an overflow where `u` stores a result that is no word of `W`. -/
def RefinesUnbounded (W : Width) (s t : State) (u : Result) : Prop :=
  (t.faultCode ≠ .arithmeticOverflow ∧ u = .next t) ∨
  (t.faultCode = .arithmeticOverflow ∧ ∃ d r, s.resolveDst 3 = .ok d ∧ W.fits r = false ∧ u = .next (s.storeAndAdvance d r))

section

variable {W : Width} {s t : State}

/-- An effect that leaves the fault code alone is the same at every width. -/
theorem RefinesUnbounded.of_next {u : State} (hs : s.faultCode ≠ .arithmeticOverflow) (hu : u.faultCode = s.faultCode)
    (h : Host.Outcome.next u = (.next t : Result)) : RefinesUnbounded W s t (.next u) := by
  cases h
  exact .inl ⟨hu ▸ hs, rfl⟩

variable (hrun : s.state.runs = true)
include hrun

/-- A fault other than the overflow is the same at every width. -/
theorem RefinesUnbounded.faultEntry {c : FaultCode} (hc : c ≠ .arithmeticOverflow) (x : Int) :
    RefinesUnbounded W s (s.faultEntry c x) (.next (s.faultEntry c x)) :=
  .inl ⟨by rwa [State.faultEntry_faultCode (ne_faulted_of_runs hrun)], rfl⟩

theorem RefinesUnbounded.orRaise {α : Type} {r : Except Int α} {f g : α → Result}
    (hf : ∀ v, r = .ok v → f v = .next t → RefinesUnbounded W s t (g v)) (h : orRaise s r f = .next t) :
    RefinesUnbounded W s t (orRaise s r g) := by
  obtain ⟨x, rfl, rfl⟩ | ⟨v, rfl, h⟩ := orRaise_next h
  · exact .faultEntry (c := .addressOutOfRange) hrun nofun x
  · exact hf v rfl h

theorem RefinesUnbounded.withSSD {m1 m2 : Mode} {f g : Int → Int → Int → Result}
    (hf : ∀ a b d, s.resolveDst 3 = .ok d → f a b d = .next t → RefinesUnbounded W s t (g a b d))
    (h : withSSD m1 m2 s f = .next t) : RefinesUnbounded W s t (withSSD m1 m2 s g) :=
  .orRaise hrun (fun a _ => .orRaise hrun fun b _ => .orRaise hrun (hf a b)) h

theorem RefinesUnbounded.withSS {m1 m2 : Mode} {f g : Int → Int → Result}
    (hf : ∀ a b, f a b = .next t → RefinesUnbounded W s t (g a b)) (h : withSS m1 m2 s f = .next t) :
    RefinesUnbounded W s t (withSS m1 m2 s g) :=
  .orRaise hrun (fun a _ => .orRaise hrun fun b _ => hf a b) h

variable (hs : s.faultCode ≠ .arithmeticOverflow)
include hs

/-- The one place where the width matters: the unbounded width stores what width `W` may not (R142). -/
theorem RefinesUnbounded.storeExact {w r d : Int} (hd : s.resolveDst 3 = .ok d) (h : storeExact W w r d s = .next t) :
    RefinesUnbounded W s t (storeExact .unbounded w r d s) := by
  obtain ⟨-, rfl⟩ | ⟨hr, rfl⟩ := storeExact_next h
  · exact .inl ⟨hs, rfl⟩
  · exact .inr ⟨State.faultEntry_faultCode (ne_faulted_of_runs hrun) _ _, d, r, hd, hr, rfl⟩

theorem RefinesUnbounded.execAt {i : Instr} (h : execAt W i s = .next t) :
    RefinesUnbounded W s t (execAt .unbounded i s) := by
  cases i with
  | add m1 m2 dst | mul m1 m2 dst =>
    exact .withSSD hrun (fun a b d hd => RefinesUnbounded.storeExact hrun hs hd) h
  | read dst => exact .orRaise hrun (fun d _ => .of_next hs (readInto_faultCode d s)) h
  | write m1 => exact .orRaise hrun (fun a _ => .of_next hs rfl) h
  | jt m1 m2 | jf m1 m2 => exact .withSS hrun (fun a b => .of_next hs rfl) h
  | lt m1 m2 dst | eq m1 m2 dst => exact .withSSD hrun (fun a b d _ => .of_next hs rfl) h
  | halt => exact .of_next hs rfl h

omit hrun

theorem RefinesUnbounded.stepAt (h : stepAt W s = .next t) : RefinesUnbounded W s t (stepAt .unbounded s) := by
  obtain ⟨hr, hst⟩ | ⟨hrun, c, x, hf, hst⟩ | ⟨hrun, i, hf, hst⟩ := stepAt_cases W s
  · rw [stepAt_of_not_runs hr]
    exact .of_next hs rfl (hst.symm.trans h)
  · rw [stepAt_of_fetchDecode_error hrun hf]
    cases hst.symm.trans h
    exact .faultEntry hrun (State.fetchDecode_error_ne_overflow hf) x
  · rw [stepAt_of_fetchDecode_ok hrun hf]
    exact .execAt hrun hs (hst ▸ h)

end

/-- Settles O60: `RefinesUnbounded.stepAt`, its two cases told apart by the fault code. -/
theorem everyWidthRefinesTheUnbounded : Obligations.EveryWidthRefinesTheUnbounded := by
  intro W s t hs h
  obtain ⟨hcode, hu⟩ | ⟨hcode, hu⟩ := RefinesUnbounded.stepAt hs h
  · exact ⟨fun _ => hu, fun hov => absurd hov hcode⟩
  · exact ⟨fun hno => absurd hcode hno, fun _ => hu⟩

/-- Settles O59: the width of the machine is 64 by definition; an overflow at `W = ∞` would need a result that does not fit there,
and every integer does. -/
theorem machineIsOfWidth64AndTheUnboundedNeverOverflows : Obligations.MachineIsOfWidth64AndTheUnboundedNeverOverflows := by
  refine ⟨step_eq_stepAt, fun s t hs h hov => ?_⟩
  obtain ⟨d, r, -, hr, -⟩ := (everyWidthRefinesTheUnbounded .unbounded s t hs h).2 hov
  simp [Width.fits] at hr

end Sys2Proof.Machine

/-! What a decoded instruction does when it completes, told apart by the instruction (spec/40_step_and_operands.md R119, R124): from it
follow the `state` it leaves, how far the cursor goes, what each group of instructions leaves unchanged (spec/10_state.md R38), and when
a RUN blocks (R36). -/

namespace Sys2Proof.Machine

/-! ## Instructions that complete -/

/-- `execAt_next` by instruction: the effect of `i` where it raises no fault. -/
def Completes (s t : State) : Instr → Prop
  | .add _ _ _ | .mul _ _ _ | .lt _ _ _ | .eq _ _ _ => ∃ d r, s.resolveDst 3 = .ok d ∧ t = s.storeAndAdvance d r
  | .read _ => ∃ d, s.resolveDst 1 = .ok d ∧ t = readInto d s
  | .write m1 => ∃ a, s.resolveSrc 1 m1 = .ok a ∧ t = (s.pushOutput a).finish (s.cursor + 2) .ready
  | .jt m1 m2 => ∃ a b, s.resolveSrc 1 m1 = .ok a ∧ s.resolveSrc 2 m2 = .ok b ∧ t = jumpIf (wordIsTrue a) b s
  | .jf m1 m2 => ∃ a b, s.resolveSrc 1 m1 = .ok a ∧ s.resolveSrc 2 m2 = .ok b ∧ t = jumpIf (!wordIsTrue a) b s
  | .halt => t = s.finish s.cursor .halted

section

variable {W : Width} {i : Instr} {s t : State}

/-- A decoded instruction faults or completes. -/
theorem execAt_faults_or_completes (h : execAt W i s = .next t) : (∃ c x, t = s.faultEntry c x) ∨ Completes s t i := by
  cases i with
  | add m1 m2 dst | mul m1 m2 dst =>
    obtain ⟨x, hx⟩ | ⟨a, b, d, -, -, hd, h⟩ := withSSD_next h
    · exact .inl ⟨_, x, hx⟩
    · obtain ⟨-, h⟩ | ⟨-, h⟩ := storeExact_next h
      · exact .inr ⟨d, _, hd, h⟩
      · exact .inl ⟨_, _, h⟩
  | lt m1 m2 dst | eq m1 m2 dst =>
    obtain ⟨x, hx⟩ | ⟨a, b, d, -, -, hd, h⟩ := withSSD_next h
    · exact .inl ⟨_, x, hx⟩
    · cases h
      exact .inr ⟨d, _, hd, rfl⟩
  | read dst =>
    obtain ⟨x, -, hx⟩ | ⟨d, hd, h⟩ := orRaise_next h
    · exact .inl ⟨_, x, hx⟩
    · cases h
      exact .inr ⟨d, hd, rfl⟩
  | write m1 =>
    obtain ⟨x, -, hx⟩ | ⟨a, ha, h⟩ := orRaise_next h
    · exact .inl ⟨_, x, hx⟩
    · cases h
      exact .inr ⟨a, ha, rfl⟩
  | jt m1 m2 | jf m1 m2 =>
    obtain ⟨x, hx⟩ | ⟨a, b, ha, hb, h⟩ := withSS_next h
    · exact .inl ⟨_, x, hx⟩
    · cases h
      exact .inr ⟨a, b, ha, hb, rfl⟩
  | halt =>
    cases h
    exact .inr rfl

/-- `execAt_faults_or_completes` of the machine's own width. -/
theorem exec_faults_or_completes (h : exec i s = .next t) : (∃ c x, t = s.faultEntry c x) ∨ Completes s t i :=
  execAt_faults_or_completes (exec_eq_execAt i s ▸ h)

/-- READ blocks on an empty `input` and else stores its front (R150). -/
theorem readInto_cases (d : Int) (s : State) :
    (s.input = [] ∧ readInto d s = s.finish s.cursor .waiting) ∨
    ∃ v rest, s.input = v :: rest ∧ readInto d s = (s.dropInput.storeCell d v).finish (s.cursor + 2) .ready := by
  unfold readInto
  split
  · exact .inl ⟨‹_›, rfl⟩
  · exact .inr ⟨_, _, ‹_›, rfl⟩

/-- R119, R124: the `state` of an instruction that completes. -/
theorem Completes.state_eq (h : Completes s t i) : t.state = stateAfter i s.input := by
  cases i with
  | add m1 m2 dst | mul m1 m2 dst | lt m1 m2 dst | eq m1 m2 dst =>
    obtain ⟨d, r, -, rfl⟩ := h
    rfl
  | read dst =>
    obtain ⟨d, -, rfl⟩ := h
    obtain ⟨hin, hr⟩ | ⟨v, rest, hin, hr⟩ := readInto_cases d s <;> simp [hr, hin, stateAfter]
  | write m1 =>
    obtain ⟨a, -, rfl⟩ := h
    rfl
  | jt m1 m2 | jf m1 m2 =>
    obtain ⟨a, b, -, -, rfl⟩ := h
    rfl
  | halt =>
    cases h
    rfl

/-- Waiting is left by a READ of an empty `input` alone. -/
theorem stateAfter_eq_waiting {input : List Int} (h : stateAfter i input = .waiting) : (∃ dst, i = .read dst) ∧ input = [] := by
  cases i with
  | read dst =>
    by_cases hin : input = []
    · exact ⟨⟨dst, rfl⟩, hin⟩
    · simp [stateAfter, hin] at h
  | _ => nomatch h

/-- An instruction that ends in another state than Faulted has completed. -/
theorem completes_of_exec (h : exec i s = .next t) (ht : t.state ≠ .faulted) : Completes s t i := by
  obtain ⟨c, x, rfl⟩ | hc := exec_faults_or_completes h
  · exact absurd (State.faultEntry_state c x s) ht
  · exact hc

end

/-! ## Instruction length -/

theorem encodeDigits_emod_hundred {op : Nat} (m3 m2 m1 : Nat) (h : op < 100) : encodeDigits m3 m2 m1 op % 100 = op := by
  unfold encodeDigits
  omega

/-- The two low digits of an instruction word are its opcode (R82), whatever its destination digit. -/
theorem encode_emod_hundred (i : Instr) : encode i % 100 = i.opcode := by
  cases i <;> exact encodeDigits_emod_hundred _ _ _ (by decide)

theorem opcode_of_decode {w : Int} {i : Instr} (h : decode w = .ok i) : (i.opcode : Int) = w % 100 := by
  rw [← encode_of_decode h, encode_emod_hundred]

/-- R25: an instruction that completes with Ready, and does not jump, advances the cursor by its length. -/
theorem Completes.cursor_eq {i : Instr} {s t : State} (h : Completes s t i) (ht : t.state = .ready)
    (hjt : ∀ m1 m2, i = .jt m1 m2 → s.resolveSrc 1 m1 = .ok 0) (hjf : ∀ m1 m2, i = .jf m1 m2 → s.resolveSrc 1 m1 ≠ .ok 0) :
    t.cursor = s.cursor + (i.length : Int) := by
  cases i with
  | add m1 m2 dst | mul m1 m2 dst | lt m1 m2 dst | eq m1 m2 dst =>
    obtain ⟨d, r, -, rfl⟩ := h
    rfl
  | read dst =>
    obtain ⟨d, -, rfl⟩ := h
    obtain ⟨-, hr⟩ | ⟨v, rest, -, hr⟩ := readInto_cases d s
    · simp [hr] at ht
    · rw [hr]
      rfl
  | write m1 =>
    obtain ⟨a, -, rfl⟩ := h
    rfl
  | jt m1 m2 =>
    obtain ⟨a, b, ha, -, rfl⟩ := h
    cases ha.symm.trans (hjt m1 m2 rfl)
    rfl
  | jf m1 m2 =>
    obtain ⟨a, b, ha, -, rfl⟩ := h
    have hne : a ≠ 0 := fun h0 => hjf m1 m2 rfl (h0 ▸ ha)
    simp [jumpIf, wordIsTrue, hne, Instr.length]
  | halt =>
    cases h
    nomatch ht

/-- Settles O7: the table of lengths by constructor, the opcode from the encoding of the decoded word, and `Completes.cursor_eq`. -/
theorem lengthIsGivenByTheOpcode : Obligations.LengthIsGivenByTheOpcode := by
  refine ⟨fun i => by cases i <;> rfl, fun w i => opcode_of_decode, fun i s t h ht => ?_⟩
  exact (completes_of_exec h (by simp [ht])).cursor_eq ht

/-! ## Frames -/

/-- A completed store leaves every other address reading as before. -/
theorem State.memRead_storeAndAdvance_other {s : State} {d x : Int} (hd : 0 ≤ d) (r : Int) (h : x ≠ d) :
    (s.storeAndAdvance d r).memRead x = s.memRead x :=
  State.memRead_storeCell_other (s := s) hd r h

/-- A resolved destination is not negative. -/
theorem State.nonneg_of_resolveDst {s : State} {k : Nat} {d : Int} (h : s.resolveDst k = .ok d) : 0 ≤ d :=
  (State.inRange_iff.1 (State.resolveDst_eq_ok.1 h).2).1

/-- An ADD, MUL, LT or EQ that completes has stored one word. -/
theorem Completes.of_storing {m1 m2 : Mode} {dst : Nat} {i : Instr} {s t : State} (h : Completes s t i)
    (hi : i ∈ [Instr.add m1 m2 dst, .mul m1 m2 dst, .lt m1 m2 dst, .eq m1 m2 dst]) :
    ∃ d r, s.resolveDst 3 = .ok d ∧ t = s.storeAndAdvance d r := by
  simp only [List.mem_cons, List.not_mem_nil, or_false] at hi
  obtain rfl | rfl | rfl | rfl := hi <;> exact h

/-- A WRITE, JT, JF or HALT that completes has pushed one word, or only set the cursor and `state`. -/
theorem Completes.of_nonStoring {m1 m2 : Mode} {i : Instr} {s t : State} (h : Completes s t i)
    (hi : i ∈ [Instr.write m1, .jt m1 m2, .jf m1 m2, .halt]) :
    (i = .write m1 ∧ ∃ a, t = (s.pushOutput a).finish (s.cursor + 2) .ready) ∨
    ∃ pc st, st ≠ .faulted ∧ t = s.finish pc st := by
  simp only [List.mem_cons, List.not_mem_nil, or_false] at hi
  obtain rfl | rfl | rfl | rfl := hi
  · obtain ⟨a, -, ha⟩ := h
    exact .inl ⟨rfl, a, ha⟩
  · obtain ⟨a, b, -, -, rfl⟩ := h
    exact .inr ⟨_, .ready, nofun, rfl⟩
  · obtain ⟨a, b, -, -, rfl⟩ := h
    exact .inr ⟨_, .ready, nofun, rfl⟩
  · exact .inr ⟨_, .halted, nofun, h⟩

/-- Settles O42: a fault changes `state` and the fault registers alone; a completed store one cell, at an address in range. -/
theorem storingInstructionFrame : Obligations.StoringInstructionFrame := by
  intro m1 m2 dst s t i hi h
  obtain ⟨c, x, rfl⟩ | hc := exec_faults_or_completes h
  · simp
  · obtain ⟨d, r, hd, rfl⟩ := hc.of_storing hi
    refine ⟨rfl, rfl, rfl, fun d' hd' x hx => ?_, fun y hy => ?_, fun _ => ⟨rfl, rfl⟩, nofun⟩
    · cases hd.symm.trans hd'
      exact State.memRead_storeAndAdvance_other (State.nonneg_of_resolveDst hd) r hx
    · nomatch hd.symm.trans hy

/-- Settles O43: READ faulted, blocked, or stored the front of `input` at its destination. -/
theorem readFrame : Obligations.ReadFrame := by
  intro dst s t h
  obtain ⟨c, x, rfl⟩ | ⟨d, hd, rfl⟩ := exec_faults_or_completes h
  · simp
  obtain ⟨-, hr⟩ | ⟨v, rest, -, hr⟩ := readInto_cases d s
  · simp [hr]
  · rw [hr]
    refine ⟨rfl, rfl, .inr rfl, fun d' hd' x hx => ?_, fun y hy => ?_, fun _ => ⟨rfl, rfl⟩, nofun⟩
    · cases hd.symm.trans hd'
      exact State.memRead_storeCell_other (s := s.dropInput) (State.nonneg_of_resolveDst hd) v hx
    · nomatch hd.symm.trans hy

/-- Settles O44: a fault, a pushed word, or a new cursor and `state`. -/
theorem nonStoringInstructionFrame : Obligations.NonStoringInstructionFrame := by
  intro m1 m2 s t i hi h
  obtain ⟨c, x, rfl⟩ | hc := exec_faults_or_completes h
  · simp
  · obtain ⟨rfl, a, rfl⟩ | ⟨pc, st, hst, rfl⟩ := hc.of_nonStoring hi
    · simp
    · simp [hst]

/-! ## A RUN that blocks -/

theorem runs_of_ready_or_waiting {st : ExecState} (h : st = .ready ∨ st = .waiting) : st.runs = true := by
  obtain rfl | rfl := h <;> rfl

/-- A RUN of a running Machine that does not fault has executed the instruction at its cursor, which completed. -/
theorem completes_of_step {s t : State} (hrun : s.state.runs = true) (h : step s = .next t) (ht : t.state ≠ .faulted) :
    ∃ i, s.inRange s.cursor = true ∧ decode (s.cell s.cursor) = .ok i ∧ Completes s t i := by
  obtain ⟨hr, -⟩ | ⟨-, c, x, -, hst⟩ | ⟨-, i, hf, hst⟩ := step_cases s
  · simp [hrun] at hr
  · cases hst.symm.trans h
    exact absurd (State.faultEntry_state c x s) ht
  · obtain ⟨hpc, hd⟩ := State.fetchDecode_eq_ok.1 hf
    exact ⟨i, hpc, hd, completes_of_exec (hst ▸ h) ht⟩

/-- Settles O25: the RUN completed an instruction that leaves Waiting, so a READ of an empty `input`, which sets `state` alone. -/
theorem waitingIsABlockedRead : Obligations.WaitingIsABlockedRead := by
  intro s t hs h ht
  obtain ⟨i, hpc, hdec, hc⟩ := completes_of_step (runs_of_ready_or_waiting hs) h (by simp [ht])
  obtain ⟨⟨dst, rfl⟩, hin⟩ := stateAfter_eq_waiting (hc.state_eq.symm.trans ht)
  obtain ⟨d, hd, rfl⟩ := hc
  obtain ⟨-, hr⟩ | ⟨v, rest, hne, -⟩ := readInto_cases d s
  · rw [hr]
    exact ⟨hin, rfl, hpc, (opcode_of_decode hdec).symm, d, hd⟩
  · nomatch hin.symm.trans hne

end Sys2Proof.Machine

/-! LOAD, and what the other host commands leave alone (spec/10_state.md R24, R34 to R37; spec/46_host_commands.md R193, R203). -/

namespace Sys2Proof.Machine

/-! ## LOAD and reset -/

section

variable {W : Width} {image : List Int}

theorem load_of_tooLong (h : Config.memMax W < image.length) : load W image = .refused .imageTooLong := by
  simp [load, h]

theorem load_of_fits (hlen : image.length ≤ Config.memMax W) (hw : ∀ v ∈ image, W.fits v = true) :
    load W image = .next (State.ofImage image, .nothing) := by
  simp [load, Nat.not_lt.2 hlen, allWords_iff.2 hw]

theorem load_of_not_fits (hlen : image.length ≤ Config.memMax W) {v : Int} (hv : v ∈ image) (hw : W.fits v = false) :
    load W image = .refused .notAWord := by
  have hall : ¬ allWords W image = true := fun h => by simp [allWords_iff.1 h v hv] at hw
  simp [load, Nat.not_lt.2 hlen, hall]

/-- R34: cell `i` of the Machine LOAD makes holds word `i` of the image. -/
theorem State.memRead_ofImage (i : Nat) (h : i < image.length) : (State.ofImage image).memRead i = .ok image[i] := by
  refine State.memRead_eq_ok.2 ⟨State.inRange_iff.2 ⟨by omega, by simpa [State.ofImage] using h⟩, ?_⟩
  simpa [State.cell, State.ofImage, h] using Memory.read_ofImageFrom 0 i image

end

/-- Reset is the Machine of the empty image (log 4). -/
theorem State.ofImage_nil : State.ofImage [] = State.reset := rfl

/-- Settles O10: the three answers of LOAD, and the cells of the Machine it makes. -/
theorem loadConstructsTheMachine : Obligations.LoadConstructsTheMachine := by
  refine fun W image => ⟨fun hlen hw => ?_, load_of_tooLong, fun hlen v hv hw => load_of_not_fits hlen hv hw⟩
  exact ⟨_, load_of_fits hlen hw, rfl, State.memRead_ofImage, rfl, rfl, rfl, rfl, rfl, rfl⟩

/-- Settles O9: `load_of_fits` of the empty image. -/
theorem resetIsLoadOfTheEmptyImage : Obligations.ResetIsLoadOfTheEmptyImage :=
  ⟨rfl, rfl, rfl, rfl, rfl, rfl, rfl, rfl, fun _ => State.ofImage_nil ▸ load_of_fits (Nat.zero_le _) nofun⟩

/-- Settles O57: the Machine LOAD makes of the empty image meets the invariant. -/
theorem resetMeetsTheInvariant : Obligations.ResetMeetsTheInvariant :=
  fun _ => State.ofImage_nil ▸ State.Inv.ofImage (Nat.zero_le _) nofun

/-- Settles O11: by command for an empty slot; a slot with a Machine passes the command on. -/
theorem onlyLoadBeforeTheFirstLoad : Obligations.OnlyLoadBeforeTheFirstLoad := by
  refine fun W => ⟨fun c hc => ?_, fun _ => rfl, fun _ _ => rfl⟩
  cases c with
  | load image => exact absurd rfl (hc image)
  | _ => rfl

/-! ## Every other command -/

@[simp] theorem readInto_memLen (d : Int) (s : State) : (readInto d s).memLen = s.memLen := by
  unfold readInto
  split <;> rfl

theorem execAt_memLen {W : Width} {i : Instr} {s t : State} (h : execAt W i s = .next t) : t.memLen = s.memLen := by
  obtain ⟨c, x, rfl, -⟩ | ⟨d, r, -, rfl⟩ | ⟨d, -, rfl⟩ | ⟨m, a, -, rfl⟩ | ⟨m, b, -, taken, rfl⟩ | rfl := execAt_next h
  · exact State.faultEntry_memLen c x s
  · rfl
  · exact readInto_memLen d s
  · rfl
  · rfl
  · rfl

theorem stepAt_memLen {W : Width} {s t : State} (h : stepAt W s = .next t) : t.memLen = s.memLen := by
  obtain ⟨-, hst⟩ | ⟨-, c, x, -, hst⟩ | ⟨-, i, -, hst⟩ := stepAt_cases W s
  · cases hst.symm.trans h
    rfl
  · cases hst.symm.trans h
    exact State.faultEntry_memLen c x s
  · exact execAt_memLen (hst ▸ h)

/-- Settles O48: the cases of `command_next`; a RUN by `stepAt_memLen`. -/
theorem onlyLoadChangesTheLength : Obligations.OnlyLoadChangesTheLength := by
  intro W c s t r hc h
  obtain ⟨-, h⟩ | ⟨a, -, -, -, rfl⟩ | ⟨a, v, -, -, -, rfl⟩ | ⟨v, -, -, rfl⟩ | ⟨-, rfl⟩ | rfl := command_next hc h
  · exact stepAt_memLen h
  · exact State.faultEntry_memLen _ a s
  · rfl
  · rfl
  · rfl
  · rfl

/-- Settles O23: a RUN does nothing in Faulted, a second fault is not recorded, and no other command touches the three registers. -/
theorem faultedIsLeftOnlyByLoad : Obligations.FaultedIsLeftOnlyByLoad := by
  intro W c s t r hc hs h
  obtain ⟨-, h⟩ | ⟨a, -, -, -, rfl⟩ | ⟨a, v, -, -, -, rfl⟩ | ⟨v, -, -, rfl⟩ | ⟨-, rfl⟩ | rfl := command_next hc h
  · cases (stepAt_of_not_runs (by rw [hs]; rfl)).symm.trans h
    exact ⟨hs, rfl, rfl⟩
  · rw [State.faultEntry_of_faulted hs]
    exact ⟨hs, rfl, rfl⟩
  all_goals exact ⟨hs, rfl, rfl⟩

/-- Settles O24: a RUN does nothing in Halted, and no command but a PEEK or POKE that faults touches `state`. -/
theorem haltedIsLeftOnlyByABadAddress : Obligations.HaltedIsLeftOnlyByABadAddress := by
  intro W c s t r hc hs h ht
  obtain ⟨-, h⟩ | ⟨a, ha, -, hca, rfl⟩ | ⟨a, v, -, -, -, rfl⟩ | ⟨v, -, -, rfl⟩ | ⟨-, rfl⟩ | rfl := command_next hc h
  · cases (stepAt_of_not_runs (by rw [hs]; rfl)).symm.trans h
    exact absurd hs ht
  · exact ⟨a, ha, hca, State.faultEntry_of_not_faulted (by simp [hs]) _ a⟩
  all_goals exact absurd hs ht

end Sys2Proof.Machine

/-! Memory (spec/20_memory.md): the bounds of an access, the one cell a write changes, and an instruction that writes the word executed
after it (R64; spec/70_reset_and_hazards.md R260, R261). -/

namespace Sys2Proof.Machine

/-! ## One access -/

/-- R264: the bounds are strict on both sides. -/
theorem State.inRange_eq_false {s : State} {a : Int} : s.inRange a = false ↔ a < 0 ∨ (s.memLen : Int) ≤ a := by
  rw [← Bool.not_eq_true, State.inRange_iff]
  omega

theorem State.memWrite_eq_error {s : State} {a v x : Int} : s.memWrite a v = .error x ↔ s.inRange a = false ∧ a = x := by
  cases h : s.inRange a <;> simp [State.memWrite, h]

/-- Settles O12: the two answers of `MemRead`, by the bounds check. -/
theorem memReadChecksTheBounds : Obligations.MemReadChecksTheBounds := fun _ _ =>
  ⟨fun h => State.memRead_eq_ok.2 ⟨State.inRange_iff.2 h, rfl⟩,
    fun h => State.memRead_eq_error.2 ⟨State.inRange_eq_false.2 h, rfl⟩⟩

/-- Settles O13: in range the state after is `storeCell`, which canonical memory reads back at its address alone. -/
theorem memWriteWritesOneCell : Obligations.MemWriteWritesOneCell := by
  refine fun s a v hwf => ⟨fun h => ?_, fun h => State.memWrite_eq_error.2 ⟨State.inRange_eq_false.2 h, rfl⟩⟩
  have hr := State.inRange_iff.2 h
  exact ⟨s.storeCell a v, State.memWrite_eq_ok.2 ⟨hr, rfl⟩, rfl, State.memRead_storeCell hwf hr v⟩

/-! ## A stored word that is executed next -/

/-- The digits from position 5 up are reserved in every format (R82). -/
theorem highDigits_of_decodeNat {w : Nat} {i : Instr} (h : decodeNat w = .ok i) : highDigits w = 0 := by
  unfold decodeNat at h
  split at h
  case h_1 | h_2 | h_7 | h_8 =>
    obtain ⟨m1, m2, -, -, hh, -⟩ := decodeSSD_eq_ok.1 h
    exact hh
  case h_3 =>
    obtain ⟨-, -, hh, -⟩ := decodeD_eq_ok.1 h
    exact hh
  case h_4 =>
    obtain ⟨m1, -, -, -, hh, -⟩ := decodeS_eq_ok.1 h
    exact hh
  case h_5 | h_6 =>
    obtain ⟨m1, m2, -, -, -, hh, -⟩ := decodeSS_eq_ok.1 h
    exact hh
  case h_9 =>
    obtain ⟨-, -, -, hh, -⟩ := decodeZ_eq_ok.1 h
    exact hh
  case h_10 => nomatch h

/-- A defined instruction word is not negative and has at most five digits (R82, R92). -/
theorem bounds_of_decode {w : Int} {i : Instr} (h : decode w = .ok i) : 0 ≤ w ∧ w < 100000 := by
  rcases Int.lt_or_le w 0 with hw | hw
  · simp [decode_of_neg hw] at h
  · lift w to Nat using hw
    have hh := highDigits_of_decodeNat (decode_natCast w ▸ h)
    unfold highDigits at hh
    omega

/-- R6: every defined instruction word is a word of every width the spec allows. -/
theorem fits_of_decode {W : Width} (hW : W.legal = true) {w : Int} {i : Instr} (h : decode w = .ok i) : W.fits w = true := by
  obtain ⟨h0, h1⟩ := bounds_of_decode h
  cases W with
  | bits n =>
    have hn : 18 ≤ n := by simpa [Width.legal] using hW
    have : 2 ^ 17 ≤ 2 ^ (n - 1) := Nat.pow_le_pow_right (by decide) (by omega)
    simp only [Width.fits, decide_eq_true_eq]
    omega
  | unbounded => rfl

/-- Format SSD where every parameter resolves: what the instruction answers. -/
theorem withSSD_of_resolved {s : State} {m1 m2 : Mode} {a b d : Int} (ha : s.resolveSrc 1 m1 = .ok a)
    (hb : s.resolveSrc 2 m2 = .ok b) (hd : s.resolveDst 3 = .ok d) (f : Int → Int → Int → Result) :
    withSSD m1 m2 s f = f a b d := by
  simp [withSSD, orRaise, ha, hb, hd]

theorem storeExact_of_fits {W : Width} {r : Int} (h : W.fits r = true) (w d : Int) (s : State) :
    storeExact W w r d s = .next (s.storeAndAdvance d r) := by
  simp [storeExact, h]

/-- R140 where the sum is a word: it is stored at the destination. -/
theorem addAt_of_fits {W : Width} {s : State} {m1 m2 : Mode} {a b d : Int} (dst : Nat) (ha : s.resolveSrc 1 m1 = .ok a)
    (hb : s.resolveSrc 2 m2 = .ok b) (hd : s.resolveDst 3 = .ok d) (hfit : W.fits (a + b) = true) :
    addAt W m1 m2 dst s = .next (s.storeAndAdvance d (a + b)) :=
  (withSSD_of_resolved ha hb hd _).trans (storeExact_of_fits hfit _ d s)

/-- RUN where an instruction is decoded (R111), by the machine's own `exec`. -/
theorem step_of_fetchDecode_ok {s : State} {i : Instr} (hr : s.state.runs = true) (hf : s.fetchDecode = .ok i) :
    step s = exec i s := by
  rw [step_eq_stepAt, exec_eq_execAt, stepAt_of_fetchDecode_ok hr hf]

/-- R64: after a store at the word that comes next, the word stored is the one fetched. -/
theorem State.fetchDecode_storeAndAdvance_next {s : State} {r : Int} {j : Instr} (hwf : s.mem.wf = true)
    (hd : s.inRange (s.cursor + 4) = true) (hj : decode r = .ok j) :
    (s.storeAndAdvance (s.cursor + 4) r).fetchDecode = .ok j := by
  have hread : (s.storeCell (s.cursor + 4) r).memRead (s.cursor + 4) = .ok r := by
    rw [State.memRead_storeCell hwf hd, if_pos rfl]
  obtain ⟨hin, hcell⟩ := State.memRead_eq_ok.1 hread
  exact State.fetchDecode_eq_ok.2 ⟨hin, (congrArg decode hcell).trans hj⟩

/-- Settles O31: a sum that decodes is a word, so ADD stores it; the cursor 4 on then fetches what was stored. -/
theorem storedWordIsTheNextInstruction : Obligations.StoredWordIsTheNextInstruction := by
  intro m1 m2 dst s a b j hwf ha hb hd hj
  have hfit : Config.width.fits (a + b) = true := fits_of_decode (by decide) hj
  obtain ⟨-, hin⟩ := State.resolveDst_eq_ok.1 hd
  exact ⟨_, addAt_of_fits dst ha hb hd hfit, rfl,
    step_of_fetchDecode_ok rfl (State.fetchDecode_storeAndAdvance_next hwf hin hj)⟩

end Sys2Proof.Machine

/-! The instruction word (spec/30_encoding.md R82 to R95): decoding and encoding undo each other, the legal words are those of the opcode
map, every other word faults with the reason of R92 to R95, and the digit of a destination is ignored (R88). -/

namespace Sys2Proof.Machine

/-! ## From an instruction to its word and back -/

/-- A word made of five digits decodes as every word with these digits does (R82). -/
theorem decode_encodeDigits {m3 m2 m1 op : Nat} {r : Except Reject Instr} (h3 : m3 ≤ 9) (h2 : m2 ≤ 9) (h1 : m1 ≤ 9)
    (hop : op < 100) (hr : ∀ w : Nat, w % 100 = op → digit w 2 = m1 → digit w 3 = m2 → digit w 4 = m3 → highDigits w = 0 →
      decodeNat w = r) : decode (encodeDigits m3 m2 m1 op) = r := by
  refine (decode_natCast _).trans (hr _ (by omega) ?_ ?_ ?_ ?_)
  all_goals
    simp only [digit, highDigits]
    omega

theorem Mode.digit_le_nine (m : Mode) : m.digit ≤ 9 := (Mode.digit_le m).trans (by decide)

theorem digitOk_iff {d : Nat} : digitOk d = true ↔ d ≤ 9 := decide_eq_true_iff

/-- Settles O1: by constructor, the format's decoder finds the digits the word was made of. -/
theorem decodeOfEncodeIsTheInstruction : Obligations.DecodeOfEncodeIsTheInstruction := by
  intro i hi
  cases i with
  | add m1 m2 dst | mul m1 m2 dst | lt m1 m2 dst | eq m1 m2 dst =>
    refine decode_encodeDigits (digitOk_iff.1 hi) (Mode.digit_le_nine m2) (Mode.digit_le_nine m1) (by decide) ?_
    rintro w hop h1 h2 rfl hh
    rw [decodeNat, hop]
    exact decodeSSD_eq_ok.2 ⟨m1, m2, h1, h2, hh, rfl⟩
  | read dst =>
    refine decode_encodeDigits (Nat.zero_le 9) (Nat.zero_le 9) (digitOk_iff.1 hi) (by decide) ?_
    rintro w hop rfl h2 h3 hh
    rw [decodeNat, hop]
    exact decodeD_eq_ok.2 ⟨h2, h3, hh, rfl⟩
  | write m1 =>
    refine decode_encodeDigits (Nat.zero_le 9) (Nat.zero_le 9) (Mode.digit_le_nine m1) (by decide) ?_
    intro w hop h1 h2 h3 hh
    rw [decodeNat, hop]
    exact decodeS_eq_ok.2 ⟨m1, h1, h2, h3, hh, rfl⟩
  | jt m1 m2 | jf m1 m2 =>
    refine decode_encodeDigits (Nat.zero_le 9) (Mode.digit_le_nine m2) (Mode.digit_le_nine m1) (by decide) ?_
    intro w hop h1 h2 h3 hh
    rw [decodeNat, hop]
    exact decodeSS_eq_ok.2 ⟨m1, m2, h1, h2, h3, hh, rfl⟩
  | halt => rfl

/-- What a word decodes to can be written down: a destination digit that was read from a word is a digit. -/
theorem wellFormed_of_decodeNat {w : Nat} {i : Instr} (h : decodeNat w = .ok i) : i.wellFormed = true := by
  unfold decodeNat at h
  split at h
  case h_1 | h_2 | h_7 | h_8 =>
    obtain ⟨m1, m2, -, -, -, rfl⟩ := decodeSSD_eq_ok.1 h
    exact digitOk_iff.2 (digit_le w 4)
  case h_3 =>
    obtain ⟨-, -, -, rfl⟩ := decodeD_eq_ok.1 h
    exact digitOk_iff.2 (digit_le w 2)
  case h_4 =>
    obtain ⟨m1, -, -, -, -, rfl⟩ := decodeS_eq_ok.1 h
    rfl
  case h_5 | h_6 =>
    obtain ⟨m1, m2, -, -, -, -, rfl⟩ := decodeSS_eq_ok.1 h
    rfl
  case h_9 =>
    obtain ⟨-, -, -, -, rfl⟩ := decodeZ_eq_ok.1 h
    rfl
  case h_10 => nomatch h

/-- Settles O2: the word from `encode_of_decode`, and no word decodes to an instruction that cannot be written down. -/
theorem decodableWordIsTheEncoding : Obligations.DecodableWordIsTheEncoding := by
  refine fun w i h => ⟨encode_of_decode h, ?_⟩
  lift w to Nat using (bounds_of_decode h).1
  exact wellFormed_of_decodeNat (decode_natCast w ▸ h)

/-- Settles O3: the decoder evaluated on each of the thirteen words. -/
theorem specWordsDecodeAsListed : Obligations.SpecWordsDecodeAsListed :=
  ⟨rfl, rfl, rfl, rfl, rfl, rfl, rfl, rfl, rfl, rfl, rfl, rfl, rfl⟩

/-! ## The legal words -/

theorem Mode.exists_iff {p : Mode → Prop} : (∃ m, p m) ↔ p .position ∨ p .immediate := by
  refine ⟨?_, fun h => h.elim (⟨_, ·⟩) (⟨_, ·⟩)⟩
  rintro ⟨m, hm⟩
  cases m
  · exact .inl hm
  · exact .inr hm

/-- A digit of 0 or 1 is a mode's (R83). -/
theorem lt_two_iff_mode {n : Nat} : n < 2 ↔ ∃ m : Mode, m.digit = n := by
  simp only [Mode.exists_iff, Mode.digit]
  omega

theorem mem_legalSSD {op n : Nat} :
    n ∈ legalSSD op ↔ ∃ m1 m2 : Mode, ∃ dst, digitOk dst = true ∧ encodeDigits dst m2.digit m1.digit op = n := by
  simp only [legalSSD, List.mem_flatMap, List.mem_map, List.mem_range, lt_two_iff_mode, digitOk_iff, encodeDigits]
  constructor
  · rintro ⟨c, hc, _, ⟨m2, rfl⟩, _, ⟨m1, rfl⟩, rfl⟩
    exact ⟨m1, m2, c, by omega, rfl⟩
  · rintro ⟨m1, m2, c, hc, h⟩
    exact ⟨c, by omega, _, ⟨m2, rfl⟩, _, ⟨m1, rfl⟩, by omega⟩

theorem mem_legalD {n : Nat} :
    n ∈ (List.range 10).map (fun a => 100 * a + 3) ↔ ∃ dst, digitOk dst = true ∧ encodeDigits 0 0 dst 3 = n := by
  simp only [List.mem_map, List.mem_range, digitOk_iff, encodeDigits]
  exact exists_congr fun c => by omega

theorem mem_legalS {n : Nat} : n ∈ [4, 104] ↔ ∃ m1 : Mode, encodeDigits 0 0 m1.digit 4 = n := by
  simp only [List.mem_cons, List.not_mem_nil, or_false, Mode.exists_iff, Mode.digit, encodeDigits]
  omega

theorem mem_legalSS {op n : Nat} :
    n ∈ [op, 100 + op, 1000 + op, 1100 + op] ↔ ∃ m1 m2 : Mode, encodeDigits 0 m2.digit m1.digit op = n := by
  simp only [List.mem_cons, List.not_mem_nil, or_false, Mode.exists_iff, Mode.digit, encodeDigits]
  omega

theorem mem_legalZ {n : Nat} : n ∈ [99] ↔ encodeDigits 0 0 0 99 = n := by
  simp only [List.mem_singleton, encodeDigits]
  omega

theorem exists_encode_of_mem_legalWords {n : Nat} (h : n ∈ legalWords) : ∃ i : Instr, i.wellFormed = true ∧ encode i = n := by
  simp only [legalWords, List.mem_append, or_assoc] at h
  obtain h | h | h | h | h | h | h | h | h := h
  · obtain ⟨m1, m2, dst, hd, h⟩ := mem_legalSSD.1 h
    exact ⟨.add m1 m2 dst, hd, h⟩
  · obtain ⟨m1, m2, dst, hd, h⟩ := mem_legalSSD.1 h
    exact ⟨.mul m1 m2 dst, hd, h⟩
  · obtain ⟨dst, hd, h⟩ := mem_legalD.1 h
    exact ⟨.read dst, hd, h⟩
  · obtain ⟨m1, h⟩ := mem_legalS.1 h
    exact ⟨.write m1, rfl, h⟩
  · obtain ⟨m1, m2, h⟩ := mem_legalSS.1 h
    exact ⟨.jt m1 m2, rfl, h⟩
  · obtain ⟨m1, m2, h⟩ := mem_legalSS.1 h
    exact ⟨.jf m1 m2, rfl, h⟩
  · obtain ⟨m1, m2, dst, hd, h⟩ := mem_legalSSD.1 h
    exact ⟨.lt m1 m2 dst, hd, h⟩
  · obtain ⟨m1, m2, dst, hd, h⟩ := mem_legalSSD.1 h
    exact ⟨.eq m1 m2 dst, hd, h⟩
  · exact ⟨.halt, rfl, mem_legalZ.1 h⟩

theorem mem_legalWords_of_encode {n : Nat} {i : Instr} (hi : i.wellFormed = true) (h : encode i = n) : n ∈ legalWords := by
  simp only [legalWords, List.mem_append]
  cases i with
  | add m1 m2 dst | mul m1 m2 dst | lt m1 m2 dst | eq m1 m2 dst =>
    simp only [mem_legalSSD.2 ⟨m1, m2, dst, hi, h⟩, true_or, or_true]
  | read dst => simp only [mem_legalD.2 ⟨dst, hi, h⟩, true_or, or_true]
  | write m1 => simp only [mem_legalS.2 ⟨m1, h⟩, true_or, or_true]
  | jt m1 m2 =>
    have hn : n ∈ [5, 105, 1005, 1105] := mem_legalSS.2 ⟨m1, m2, h⟩
    simp only [hn, true_or, or_true]
  | jf m1 m2 =>
    have hn : n ∈ [6, 106, 1006, 1106] := mem_legalSS.2 ⟨m1, m2, h⟩
    simp only [hn, true_or, or_true]
  | halt => exact .inr (mem_legalZ.2 h)

/-- R86: the legal words are the words of the well-formed instructions. -/
theorem mem_legalWords {n : Nat} : n ∈ legalWords ↔ ∃ i : Instr, i.wellFormed = true ∧ encode i = n :=
  ⟨exists_encode_of_mem_legalWords, fun ⟨_, hi, h⟩ => mem_legalWords_of_encode hi h⟩

/-! The list is made of one block per opcode, the opcodes rising, so a word can only be listed twice inside one block. -/

/-- No word of the list is listed twice, and their opcodes lie from `a` up and below `b`. -/
def DistinctWords (a b : Nat) (l : List Nat) : Prop := l.Nodup ∧ ∀ n ∈ l, a ≤ n % 100 ∧ n % 100 < b

theorem DistinctWords.append {a b c : Nat} {l l' : List Nat} (hl : DistinctWords a b l) (hl' : DistinctWords b c l')
    (hab : a ≤ b := by decide) (hbc : b ≤ c := by decide) : DistinctWords a c (l ++ l') := by
  obtain ⟨hl, hop⟩ := hl
  obtain ⟨hl', hop'⟩ := hl'
  refine ⟨hl.append hl' fun n h h' => ?_, List.forall_mem_append.2 ⟨fun n h => ?_, fun n h => ?_⟩⟩
  · have := hop n h
    have := hop' n h'
    omega
  · have := hop n h
    omega
  · have := hop' n h
    omega

/-- The words of one opcode of format SSD are those of opcode 0, each `op` further on. -/
theorem distinctWords_legalSSD {op : Nat} (h : op < 100) : DistinctWords op (op + 1) (legalSSD op) := by
  refine ⟨(by decide : (legalSSD 0).Nodup).map (add_left_injective op), fun n hn => ?_⟩
  obtain ⟨m1, m2, dst, -, hw⟩ := mem_legalSSD.1 hn
  have := encodeDigits_emod_hundred dst m2.digit m1.digit h
  omega

theorem legalWords_nodup : legalWords.Nodup := by
  have add := distinctWords_legalSSD (op := 1) (by decide)
  have mul := distinctWords_legalSSD (op := 2) (by decide)
  have read : DistinctWords 3 4 ((List.range 10).map fun a => 100 * a + 3) := ⟨by decide, by decide⟩
  have write : DistinctWords 4 5 [4, 104] := ⟨by decide, by decide⟩
  have jt : DistinctWords 5 6 [5, 105, 1005, 1105] := ⟨by decide, by decide⟩
  have jf : DistinctWords 6 7 [6, 106, 1006, 1106] := ⟨by decide, by decide⟩
  have lt := distinctWords_legalSSD (op := 7) (by decide)
  have eq := distinctWords_legalSSD (op := 8) (by decide)
  have halt : DistinctWords 9 100 [99] := ⟨by decide, by decide⟩
  exact (((((((add.append mul).append read).append write).append jt).append jf).append lt).append eq).append halt |>.1

/-- The law of instruction words holds of every mnemonic. -/
theorem encodedWord_statement (i : Instr) : Laws.EncodedWord.Statement i := by
  cases i with
  | add m1 m2 dst => exact Laws.EncodedWord.add m1 m2 dst
  | mul m1 m2 dst => exact Laws.EncodedWord.mul m1 m2 dst
  | read dst => exact Laws.EncodedWord.read dst
  | write m1 => exact Laws.EncodedWord.write m1
  | jt m1 m2 => exact Laws.EncodedWord.jt m1 m2
  | jf m1 m2 => exact Laws.EncodedWord.jf m1 m2
  | lt m1 m2 dst => exact Laws.EncodedWord.lt m1 m2 dst
  | eq m1 m2 dst => exact Laws.EncodedWord.eq m1 m2 dst
  | halt => exact Laws.EncodedWord.halt

/-- Settles O4: the words that decode are those of the well-formed instructions, and so are the words of the list. -/
theorem legalWordsAreTheOpcodeMap : Obligations.LegalWordsAreTheOpcodeMap := by
  refine ⟨fun w => ⟨?_, ?_⟩, rfl, legalWords_nodup, mem_legalWords.2 ⟨.eq .immediate .immediate 9, rfl, rfl⟩, fun n hn => ?_⟩
  · rintro ⟨i, hi⟩
    obtain ⟨hw, hwf⟩ := decodableWordIsTheEncoding w i hi
    lift w to Nat using (bounds_of_decode hi).1
    exact ⟨w, mem_legalWords.2 ⟨i, hwf, hw⟩, rfl⟩
  · rintro ⟨n, hn, rfl⟩
    obtain ⟨i, hwf, hi⟩ := mem_legalWords.1 hn
    exact ⟨i, hi ▸ decodeOfEncodeIsTheInstruction i hwf⟩
  · obtain ⟨i, hwf, hi⟩ := mem_legalWords.1 hn
    obtain ⟨-, hmax, -⟩ := encodedWord_statement i hwf
    omega

/-! ## Words that are no instruction -/

theorem formatOf_eq_none {op : Nat} : formatOf op = none ↔ op ∉ ([1, 2, 3, 4, 5, 6, 7, 8, 99] : List Nat) := by
  simp only [formatOf, List.mem_cons, List.not_mem_nil, or_false]
  split_ifs <;> simp only [false_iff, true_iff] <;> omega

/-- Why a word that is not negative is no instruction: it has no format, or a digit illegal for the format it has. -/
theorem decodeNat_eq_error {w : Nat} {r : Reject} :
    decodeNat w = .error r ↔ (Reject.illegalOpcode = r ∧ formatOf (w % 100) = none) ∨
      (Reject.illegalMode = r ∧ ∃ f, formatOf (w % 100) = some f ∧ f.digitsLegal w = false) := by
  unfold decodeNat
  split
  case h_1 hop | h_2 hop | h_7 hop | h_8 hop => simp [hop, decodeSSD_eq_error, formatOf]
  case h_3 hop => simp [hop, decodeD_eq_error, formatOf]
  case h_4 hop => simp [hop, decodeS_eq_error, formatOf]
  case h_5 hop | h_6 hop => simp [hop, decodeSS_eq_error, formatOf]
  case h_9 hop => simp [hop, decodeZ_eq_error, formatOf]
  case h_10 =>
    have hf : formatOf (w % 100) = none := formatOf_eq_none.2 (by simp_all)
    simp [hf]

/-- R92, R93: the words with the reason IllegalOpcode. -/
theorem decode_eq_illegalOpcode {w : Int} :
    decode w = .error .illegalOpcode ↔ w < 0 ∨ w % 100 ∉ ([1, 2, 3, 4, 5, 6, 7, 8, 99] : List Int) := by
  rcases Int.lt_or_le w 0 with hw | hw
  · simp [decode_of_neg hw, hw]
  · lift w to Nat using hw
    have hop : formatOf (w % 100) = none ↔ (w : Int) % 100 ∉ ([1, 2, 3, 4, 5, 6, 7, 8, 99] : List Int) := by
      simp only [formatOf_eq_none, List.mem_cons, List.not_mem_nil, or_false]
      omega
    simp [decode_natCast, decodeNat_eq_error, hop]

/-- R94, R95: the words with the reason IllegalMode. -/
theorem decode_eq_illegalMode {w : Int} :
    decode w = .error .illegalMode ↔ 0 ≤ w ∧ ∃ f, formatOf (w.toNat % 100) = some f ∧ f.digitsLegal w.toNat = false := by
  rcases Int.lt_or_le w 0 with hw | hw
  · simp [decode_of_neg hw, hw]
  · lift w to Nat using hw
    simp [decode_natCast, decodeNat_eq_error]

/-- R113: a RUN that fetches a word that is no instruction faults with the reason and the word. -/
theorem step_of_decode_error {s : State} {r : Reject} (hrun : s.state.runs = true) (hpc : s.inRange s.cursor = true)
    (h : decode (s.cell s.cursor) = .error r) : step s = .next (s.faultedWith (rejectCode r) (s.cell s.cursor)) := by
  have hf := State.fetchDecode_eq_error.2 (.inr ⟨hpc, rfl, r, h, rfl⟩)
  rw [step_eq_stepAt, stepAt_of_fetchDecode_error hrun hf, State.faultEntry_of_not_faulted (ne_faulted_of_runs hrun)]
  rfl

/-- Settles O5: `decode_eq_illegalOpcode`, and the RUN that fetches such a word. -/
theorem unlistedOpcodeFaults : Obligations.UnlistedOpcodeFaults :=
  ⟨fun _ => decode_eq_illegalOpcode, fun _ hrun hpc h => step_of_decode_error hrun hpc (decode_eq_illegalOpcode.2 h)⟩

/-- Settles O6: `decode_eq_illegalMode`, and the RUN that fetches such a word. -/
theorem illegalDigitFaults : Obligations.IllegalDigitFaults :=
  ⟨fun _ => decode_eq_illegalMode,
    fun _ f hrun hpc h0 hf hd => step_of_decode_error hrun hpc (decode_eq_illegalMode.2 ⟨h0, f, hf, hd⟩)⟩

/-! ## What a parameter's digit does -/

/-- What follows a resolved parameter can be exchanged for anything that answers `t` wherever it does. -/
theorem orRaise_mono {α : Type} {s t : State} {r : Except Int α} {f g : α → Result} (hfg : ∀ v, f v = .next t → g v = .next t)
    (h : orRaise s r f = .next t) : orRaise s r g = .next t := by
  cases r with
  | ok v => exact hfg v h
  | error a => exact h

theorem withSSD_mono {m1 m2 : Mode} {s t : State} {f g : Int → Int → Int → Result}
    (hfg : ∀ a b d, f a b d = .next t → g a b d = .next t) (h : withSSD m1 m2 s f = .next t) : withSSD m1 m2 s g = .next t :=
  orRaise_mono (fun a => orRaise_mono fun b => orRaise_mono (hfg a b)) h

/-- The instruction word is read by an overflow alone; a Faulted Machine does not record even that one (R227). -/
theorem storeExact_word_irrelevant {W : Width} {w w' r d : Int} {s t : State} (ht : t.faultCode ≠ .arithmeticOverflow)
    (h : storeExact W w r d s = .next t) : storeExact W w' r d s = .next t := by
  obtain ⟨hr, rfl⟩ | ⟨hr, rfl⟩ := storeExact_next h
  · exact storeExact_of_fits hr w' d s
  · by_cases hs : s.state = .faulted
    · simp [storeExact, hr, raise, State.faultEntry_of_faulted hs]
    · exact absurd (State.faultEntry_faultCode hs _ w) ht

/-- Settles O8: no meaning reads the digit; ADD and MUL pass it to `storeExact` in the instruction word. -/
theorem destinationDigitIsIgnored : Obligations.DestinationDigitIsIgnored := fun _ _ _ _ _ _ =>
  ⟨rfl, rfl, rfl, fun h ht => withSSD_mono (fun _ _ _ => storeExact_word_irrelevant ht) h,
    fun h ht => withSSD_mono (fun _ _ _ => storeExact_word_irrelevant ht) h⟩

/-- Settles O14: the parameter word by `MemRead`, and in Position mode the cell it names by a second one. -/
theorem sourceParameterValue : Obligations.SourceParameterValue := by
  refine fun s k m => ⟨fun h => ?_, fun h => ?_⟩
  · have hp := State.memRead_eq_error.2 ⟨h, rfl⟩
    simp [State.resolveSrc, hp]
  · have hp := State.memRead_eq_ok.2 ⟨h, rfl⟩
    refine ⟨State.resolveSrc_eq_ok.2 ⟨_, hp, .inl ⟨rfl, rfl⟩⟩, ?_⟩
    simp only [State.resolveSrc, hp]
    rfl

end Sys2Proof.Machine

/-! One RUN (spec/40_step_and_operands.md): the gate of the `state` register (R110), fetch (R112, R113), the parameters (R114, R117), what a
fault leaves alone (R120), the `state` afterwards (R124), and that every command answers (R126, R203, R204). -/

namespace Sys2Proof.Machine

/-! ## A fault raised in a step -/

/-- R226 in the terms of the statements: a Machine that is not Faulted records the fault. -/
theorem State.faultEntry_eq_faultedWith {s : State} (h : s.state ≠ .faulted) (c : FaultCode) (x : Int) :
    s.faultEntry c x = s.faultedWith c x :=
  State.faultEntry_of_not_faulted h c x

/-- R112, R113: a RUN that fails in fetch or decode. -/
theorem step_of_fetchDecode_error {s : State} {c : FaultCode} {x : Int} (hrun : s.state.runs = true)
    (hf : s.fetchDecode = .error (c, x)) : step s = .next (s.faultedWith c x) := by
  rw [step_eq_stepAt, stepAt_of_fetchDecode_error hrun hf, State.faultEntry_eq_faultedWith (ne_faulted_of_runs hrun)]

/-- Settles O17: fetch fails with the cursor. -/
theorem fetchOutsideMemoryFaults : Obligations.FetchOutsideMemoryFaults := fun _ hs hpc =>
  step_of_fetchDecode_error (runs_of_ready_or_waiting hs)
    (State.fetchDecode_eq_error.2 (.inl ⟨State.inRange_eq_false.2 hpc, rfl, rfl⟩))

/-- Fetch and decode raise a fault that has a code. -/
theorem State.fetchDecode_error_ne_none {s : State} {c : FaultCode} {x : Int} (h : s.fetchDecode = .error (c, x)) :
    c ≠ .none := by
  obtain ⟨-, rfl, -⟩ | ⟨-, -, r, -, rfl⟩ := State.fetchDecode_eq_error.1 h
  · nofun
  · cases r <;> nofun

/-- READ raises no fault once its destination is resolved. -/
theorem readInto_state_ne_faulted (d : Int) (s : State) : (readInto d s).state ≠ .faulted := by
  obtain ⟨-, hr⟩ | ⟨v, rest, -, hr⟩ := readInto_cases d s <;> simp [hr]

/-- An instruction that ends Faulted has gone through fault entry, with a code. -/
theorem exec_ends_faulted {i : Instr} {s t : State} (h : exec i s = .next t) (ht : t.state = .faulted) :
    ∃ c x, c ≠ .none ∧ t = s.faultEntry c x := by
  obtain ⟨c, x, htx, hc⟩ | ⟨d, r, -, rfl⟩ | ⟨d, -, rfl⟩ | ⟨m, a, -, rfl⟩ | ⟨m, b, -, taken, rfl⟩ | rfl := exec_next h
  · have hne : c ≠ .none := by obtain rfl | ⟨rfl, -⟩ := hc <;> nofun
    exact ⟨c, x, hne, htx⟩
  · nomatch ht
  · exact absurd ht (readInto_state_ne_faulted d s)
  · nomatch ht
  · nomatch ht
  · nomatch ht

/-- A RUN of a running Machine that ends Faulted has gone through fault entry, with a code. -/
theorem step_ends_faulted {s t : State} (hrun : s.state.runs = true) (h : step s = .next t) (ht : t.state = .faulted) :
    ∃ c x, c ≠ .none ∧ t = s.faultEntry c x := by
  obtain ⟨hr, -⟩ | ⟨-, c, x, hf, hst⟩ | ⟨-, i, -, hst⟩ := step_cases s
  · simp [hrun] at hr
  · cases hst.symm.trans h
    exact ⟨c, x, State.fetchDecode_error_ne_none hf, rfl⟩
  · exact exec_ends_faulted (hst ▸ h) ht

/-- Settles O21: the RUN ended in fault entry, which writes `state` and the fault registers alone. -/
theorem faultsArePrecise : Obligations.FaultsArePrecise := by
  intro s t hs h ht
  have hrun := runs_of_ready_or_waiting hs
  obtain ⟨c, x, hc, rfl⟩ := step_ends_faulted hrun h ht
  rw [State.faultEntry_eq_faultedWith (ne_faulted_of_runs hrun)]
  exact ⟨hc, rfl⟩

/-! ## The instruction decoded -/

/-- Fetch and decode of a word that was read at the cursor. -/
theorem State.fetchDecode_of_memRead {s : State} {w : Int} {i : Instr} (hw : s.memRead s.cursor = .ok w)
    (hi : decode w = .ok i) : s.fetchDecode = .ok i := by
  obtain ⟨hpc, rfl⟩ := State.memRead_eq_ok.1 hw
  exact State.fetchDecode_eq_ok.2 ⟨hpc, hi⟩

/-- Settles O16: `step_of_fetchDecode_ok` for the word at the cursor. -/
theorem runExecutesTheDecodedInstruction : Obligations.RunExecutesTheDecodedInstruction := fun _ _ _ hs hw hi =>
  step_of_fetchDecode_ok (runs_of_ready_or_waiting hs) (State.fetchDecode_of_memRead hw hi)

@[simp] theorem readInto_faultInfo (d : Int) (s : State) : (readInto d s).faultInfo = s.faultInfo := by
  unfold readInto
  split <;> rfl

/-- R119: an instruction that completes leaves the fault registers alone. -/
theorem Completes.fault_eq {i : Instr} {s t : State} (h : Completes s t i) :
    t.faultCode = s.faultCode ∧ t.faultInfo = s.faultInfo := by
  cases i with
  | add m1 m2 dst | mul m1 m2 dst | lt m1 m2 dst | eq m1 m2 dst =>
    obtain ⟨d, r, -, rfl⟩ := h
    exact ⟨rfl, rfl⟩
  | read dst =>
    obtain ⟨d, -, rfl⟩ := h
    exact ⟨readInto_faultCode d s, readInto_faultInfo d s⟩
  | write m1 =>
    obtain ⟨a, -, rfl⟩ := h
    exact ⟨rfl, rfl⟩
  | jt m1 m2 | jf m1 m2 =>
    obtain ⟨a, b, -, -, rfl⟩ := h
    exact ⟨rfl, rfl⟩
  | halt =>
    cases h
    exact ⟨rfl, rfl⟩

/-- Settles O27: the RUN is the instruction decoded, and that completed. -/
theorem stateTransitionTable : Obligations.StateTransitionTable := by
  intro s t w i hs hw hi h ht
  have hexec : exec i s = .next t := runExecutesTheDecodedInstruction s w i hs hw hi ▸ h
  have hc := completes_of_exec hexec ht
  exact ⟨hc.state_eq, hc.fault_eq⟩

/-! ## The parameters -/

/-- Settles O15: the parameter word by `MemRead`, and then its own bounds check. -/
theorem destinationParameterAddress : Obligations.DestinationParameterAddress := by
  refine fun s k => ⟨fun h => ?_, fun h => ?_⟩
  · have hp := State.memRead_eq_error.2 ⟨h, rfl⟩
    simp only [State.resolveDst, hp]
  · have hp := State.memRead_eq_ok.2 ⟨h, rfl⟩
    simp only [State.resolveDst, hp]

theorem orRaise_of_ok {α : Type} {s : State} {r : Except Int α} {v : α} (h : r = .ok v) (f : α → Result) :
    orRaise s r f = f v := by
  subst h
  rfl

/-- A parameter that fails is the fault, whatever would have followed. -/
theorem orRaise_of_error {α : Type} {s : State} (hs : s.state ≠ .faulted) {r : Except Int α} {x : Int}
    (h : r = .error x) (f : α → Result) : orRaise s r f = .next (s.faultedWith .addressOutOfRange x) := by
  subst h
  exact congrArg _ (State.faultEntry_eq_faultedWith hs _ x)

/-- Settles O41: every meaning is a chain of `orRaise` over its parameters, in order, with its effect at the end. -/
theorem firstBadParameterFaults : Obligations.FirstBadParameterFaults := by
  intro m1 m2 dst s x hs
  simp only [List.forall_mem_cons, List.not_mem_nil, false_imp_iff, implies_true, and_true]
  refine ⟨fun h1 => ?_, fun a ha h2 => ?_, fun a b ha hb h3 => ?_, fun h1 => orRaise_of_error hs h1 _⟩
  · have raises (f : Int → Result) : withS m1 s f = .next (s.faultedWith .addressOutOfRange x) := orRaise_of_error hs h1 f
    exact ⟨raises _, raises _, raises _, raises _, raises _, raises _, raises _⟩
  · have raises (f : Int → Int → Result) : withSS m1 m2 s f = .next (s.faultedWith .addressOutOfRange x) :=
      (orRaise_of_ok ha _).trans (orRaise_of_error hs h2 _)
    exact ⟨raises _, raises _, raises _, raises _, raises _, raises _⟩
  · have raises (f : Int → Int → Int → Result) : withSSD m1 m2 s f = .next (s.faultedWith .addressOutOfRange x) :=
      (orRaise_of_ok ha _).trans ((orRaise_of_ok hb _).trans (orRaise_of_error hs h3 _))
    exact ⟨raises _, raises _, raises _, raises _⟩

/-! ## Every command answers -/

theorem orRaise_answers {α : Type} {s : State} {f : α → Result} (hf : ∀ v, ∃ t, f v = .next t) (r : Except Int α) :
    ∃ t, orRaise s r f = .next t := by
  cases r with
  | ok v => exact hf v
  | error a => exact ⟨_, rfl⟩

theorem withSSD_answers {m1 m2 : Mode} {s : State} {f : Int → Int → Int → Result} (hf : ∀ a b d, ∃ t, f a b d = .next t) :
    ∃ t, withSSD m1 m2 s f = .next t :=
  orRaise_answers (fun a => orRaise_answers (fun b => orRaise_answers (hf a b) _) _) _

theorem withSS_answers {m1 m2 : Mode} {s : State} {f : Int → Int → Result} (hf : ∀ a b, ∃ t, f a b = .next t) :
    ∃ t, withSS m1 m2 s f = .next t :=
  orRaise_answers (fun a => orRaise_answers (hf a) _) _

theorem storeExact_answers (W : Width) (w r d : Int) (s : State) : ∃ t, storeExact W w r d s = .next t := by
  unfold storeExact
  split
  · exact ⟨_, rfl⟩
  · exact ⟨_, rfl⟩

/-- No meaning stops without a next state. -/
theorem execAt_answers (W : Width) (i : Instr) (s : State) : ∃ t, execAt W i s = .next t := by
  cases i with
  | add m1 m2 dst | mul m1 m2 dst => exact withSSD_answers fun a b d => storeExact_answers W _ _ d s
  | lt m1 m2 dst | eq m1 m2 dst => exact withSSD_answers fun a b d => ⟨_, rfl⟩
  | read dst => exact orRaise_answers (fun d => ⟨_, rfl⟩) _
  | write m1 => exact orRaise_answers (fun a => ⟨_, rfl⟩) _
  | jt m1 m2 | jf m1 m2 => exact withSS_answers fun a b => ⟨_, rfl⟩
  | halt => exact ⟨_, rfl⟩

/-- R126: every RUN has a next state. -/
theorem stepAt_answers (W : Width) (s : State) : ∃ t, stepAt W s = .next t := by
  obtain ⟨-, hst⟩ | ⟨-, c, x, -, hst⟩ | ⟨-, i, -, hst⟩ := stepAt_cases W s
  · exact ⟨s, hst⟩
  · exact ⟨_, hst⟩
  · exact hst ▸ execAt_answers W i s

/-- R195: RUN as a command is the step, and responds with the `state` after it. -/
theorem run_of_stepAt {W : Width} {s t : State} (h : stepAt W s = .next t) : run W s = .next (t, .state t.state) := by
  simp [run, h]

/-- The first answer is a next state, or both are the same refusal. -/
def AnswersOrRefusedAlike (a a' : Answer) : Prop := (∃ p, a = .next p) ∨ ∃ r, a = .refused r ∧ a' = .refused r

/-- The check of an argument does not look at the state. -/
theorem AnswersOrRefusedAlike.withWord {W : Width} {v : Int} {a a' : Answer} (h : AnswersOrRefusedAlike a a') :
    AnswersOrRefusedAlike (withWord W v a) (withWord W v a') := by
  unfold Machine.withWord
  split
  · exact h
  · exact .inr ⟨_, rfl, rfl⟩

/-- LOAD needs no Machine, so it has one answer. -/
theorem load_answersOrRefusedAlike (W : Width) (image : List Int) : AnswersOrRefusedAlike (load W image) (load W image) := by
  unfold load
  split
  · exact .inr ⟨_, rfl, rfl⟩
  · split
    · exact .inl ⟨_, rfl⟩
    · exact .inr ⟨_, rfl, rfl⟩

/-- R203, R204: what refuses a command lies in the command. -/
theorem command_answersOrRefusedAlike (W : Width) (c : Command) (s s' : State) :
    AnswersOrRefusedAlike (command W c s) (command W c s') := by
  cases c with
  | load image => exact load_answersOrRefusedAlike W image
  | run =>
    obtain ⟨t, ht⟩ := stepAt_answers W s
    exact .inl ⟨_, run_of_stepAt ht⟩
  | peek a => exact .withWord (.inl ⟨_, rfl⟩)
  | poke a v => exact .withWord (.withWord (.inl ⟨_, rfl⟩))
  | pushIn v => exact .withWord (.inl ⟨_, rfl⟩)
  | popOut | getState | getFault => exact .inl ⟨_, rfl⟩

/-- Settles O19: a RUN by `stepAt_answers`, the other commands by `command_answersOrRefusedAlike`. -/
theorem everyCommandAnswers : Obligations.EveryCommandAnswers := by
  have hrun (W : Width) (s : State) : ∃ t, stepAt W s = .next t ∧ command W .run s = .next (t, .state t.state) := by
    obtain ⟨t, ht⟩ := stepAt_answers W s
    exact ⟨t, ht, run_of_stepAt ht⟩
  exact ⟨fun s => step_eq_stepAt s ▸ hrun Config.width s, hrun, command_answersOrRefusedAlike⟩

/-! ## The `state` register as a gate -/

/-- Halted and Faulted are the states in which RUN does nothing (R110). -/
theorem not_runs_of_halted_or_faulted {st : ExecState} (h : st = .halted ∨ st = .faulted) : st.runs = false := by
  obtain rfl | rfl := h <;> rfl

/-- No parameter is resolved by the `state` register, and a fault from Waiting leaves what the same fault from Ready leaves. -/
theorem orRaise_waiting_eq_ready {α : Type} (s : State) (r : Except Int α) {f g : α → Result} (hfg : ∀ v, f v = g v) :
    orRaise { s with state := .waiting } r f = orRaise { s with state := .ready } r g := by
  cases r with
  | ok v => exact hfg v
  | error a => rfl

theorem withSSD_waiting_eq_ready (m1 m2 : Mode) (s : State) {f g : Int → Int → Int → Result}
    (hfg : ∀ a b d, f a b d = g a b d) :
    withSSD m1 m2 { s with state := .waiting } f = withSSD m1 m2 { s with state := .ready } g :=
  orRaise_waiting_eq_ready s _ fun a => orRaise_waiting_eq_ready s _ fun b => orRaise_waiting_eq_ready s _ (hfg a b)

theorem withSS_waiting_eq_ready (m1 m2 : Mode) (s : State) {f g : Int → Int → Result} (hfg : ∀ a b, f a b = g a b) :
    withSS m1 m2 { s with state := .waiting } f = withSS m1 m2 { s with state := .ready } g :=
  orRaise_waiting_eq_ready s _ fun a => orRaise_waiting_eq_ready s _ (hfg a)

theorem storeExact_waiting_eq_ready (W : Width) (w r d : Int) (s : State) :
    storeExact W w r d { s with state := .waiting } = storeExact W w r d { s with state := .ready } := by
  unfold storeExact
  split
  · rfl
  · rfl

theorem readInto_waiting_eq_ready (d : Int) (s : State) :
    readInto d { s with state := .waiting } = readInto d { s with state := .ready } := by
  obtain ⟨mem, memLen, cursor, state, input, output, faultCode, faultInfo⟩ := s
  cases input with
  | nil => rfl
  | cons v vs => rfl

/-- Every meaning sets `state` itself, so Waiting or Ready before it is no matter (log 13). -/
theorem exec_waiting_eq_ready (i : Instr) (s : State) :
    exec i { s with state := .waiting } = exec i { s with state := .ready } := by
  cases i with
  | add m1 m2 dst | mul m1 m2 dst =>
    exact withSSD_waiting_eq_ready m1 m2 s fun a b d => storeExact_waiting_eq_ready _ _ _ d s
  | lt m1 m2 dst | eq m1 m2 dst => exact withSSD_waiting_eq_ready m1 m2 s fun a b d => rfl
  | read dst => exact orRaise_waiting_eq_ready s _ fun d => congrArg _ (readInto_waiting_eq_ready d s)
  | write m1 => exact orRaise_waiting_eq_ready s _ fun a => rfl
  | jt m1 m2 | jf m1 m2 => exact withSS_waiting_eq_ready m1 m2 s fun a b => rfl
  | halt => rfl

/-- R110: Ready and Waiting fetch the same word, and the fault or the instruction it gives goes on alike. -/
theorem step_waiting_eq_ready (s : State) : step { s with state := .waiting } = step { s with state := .ready } := by
  cases hf : s.fetchDecode with
  | error e =>
    have faults {st : ExecState} (hrun : st.runs = true) : step { s with state := st } = .next (s.faultedWith e.1 e.2) :=
      step_of_fetchDecode_error hrun hf
    exact (faults rfl).trans (faults rfl).symm
  | ok i =>
    have executes {st : ExecState} (hrun : st.runs = true) : step { s with state := st } = exec i { s with state := st } :=
      step_of_fetchDecode_ok hrun hf
    rw [executes rfl, executes rfl, exec_waiting_eq_ready]

/-- Settles O18: a Machine that does not run stays as it is, and `step_waiting_eq_ready`. -/
theorem stateRegisterOnlyGatesRun : Obligations.StateRegisterOnlyGatesRun := by
  refine ⟨fun W s hs => ?_, step_waiting_eq_ready⟩
  have hst (W : Width) : stepAt W s = .next s := stepAt_of_not_runs (not_runs_of_halted_or_faulted hs)
  exact ⟨step_eq_stepAt s ▸ hst Config.width, run_of_stepAt (hst W)⟩

end Sys2Proof.Machine

/-! ADD and MUL (spec/41_arithmetic.md): the exact result is stored where it is a word (R140, R141), and is an overflow where it is none
(R142). -/

namespace Sys2Proof.Machine

/-! ## The exact result, a word or not -/

/-- R142: a result that is no word is raised with the instruction word. -/
theorem storeExact_of_not_fits {W : Width} {r : Int} (h : W.fits r = false) (w d : Int) (s : State) :
    storeExact W w r d s = .next (s.faultEntry .arithmeticOverflow w) := by
  simp [storeExact, h, raise]

/-- The range of a word of 64 bits from its outside. -/
theorem fits_eq_false_iff {v : Int} : Config.width.fits v = false ↔ v < -(2 ^ 63) ∨ 2 ^ 63 ≤ v := by
  rw [← Bool.not_eq_true, fits_iff]
  omega

/-- R119: in canonical memory the common end of format SSD is read back at the destination alone. -/
theorem State.memRead_storeAndAdvance {s : State} {d : Int} (hwf : s.mem.wf = true) (hd : s.inRange d = true) (r x : Int) :
    (s.storeAndAdvance d r).memRead x = if x = d then .ok r else s.memRead x :=
  State.memRead_storeCell hwf hd r x

/-- R118, R119, R142: what ADD and MUL do with their exact result `r`, once the destination `d` is resolved. -/
theorem storeExact_stores_or_overflows {s : State} {d : Int} (hwf : s.mem.wf = true) (hd : s.resolveDst 3 = .ok d) (w r : Int) :
    (-(2 ^ 63) ≤ r → r < 2 ^ 63 →
      ∃ t, storeExact Config.width w r d s = .next t ∧ (∀ x, t.memRead x = if x = d then .ok r else s.memRead x) ∧
        t = { s with mem := t.mem, cursor := s.cursor + 4, state := .ready }) ∧
    ((r < -(2 ^ 63) ∨ 2 ^ 63 ≤ r) →
      storeExact Config.width w r d s = .next (s.faultEntry .arithmeticOverflow w)) := by
  obtain ⟨-, hin⟩ := State.resolveDst_eq_ok.1 hd
  refine ⟨fun hlo hhi => ?_, fun hout => storeExact_of_not_fits (fits_eq_false_iff.2 hout) w d s⟩
  exact ⟨s.storeAndAdvance d r, storeExact_of_fits (fits_iff.2 ⟨hlo, hhi⟩) w d s, State.memRead_storeAndAdvance hwf hin r, rfl⟩

/-! ## The two meanings where every parameter resolves -/

section
variable {m1 m2 : Mode} {s : State} {a b d : Int} (ha : s.resolveSrc 1 m1 = .ok a) (hb : s.resolveSrc 2 m2 = .ok b)
  (hd : s.resolveDst 3 = .ok d)
include ha hb hd

/-- R140: ADD is `storeExact` of the exact sum. -/
theorem execAt_add_of_resolved (W : Width) (dst : Nat) :
    execAt W (.add m1 m2 dst) s = storeExact W (encode (.add m1 m2 dst)) (a + b) d s :=
  withSSD_of_resolved ha hb hd _

/-- R141: MUL is `storeExact` of the exact product. -/
theorem execAt_mul_of_resolved (W : Width) (dst : Nat) :
    execAt W (.mul m1 m2 dst) s = storeExact W (encode (.mul m1 m2 dst)) (a * b) d s :=
  withSSD_of_resolved ha hb hd _

end

/-- Settles O28: `storeExact_stores_or_overflows` for the sum. -/
theorem addStoresTheExactSum : Obligations.AddStoresTheExactSum := by
  intro m1 m2 dst s a b d hwf ha hb hd
  rw [exec_eq_execAt, execAt_add_of_resolved ha hb hd]
  exact storeExact_stores_or_overflows hwf hd _ (a + b)

/-- Settles O29: `storeExact_stores_or_overflows` for the product. -/
theorem mulStoresTheExactProduct : Obligations.MulStoresTheExactProduct := by
  intro m1 m2 dst s a b d hwf ha hb hd
  rw [exec_eq_execAt, execAt_mul_of_resolved ha hb hd]
  exact storeExact_stores_or_overflows hwf hd _ (a * b)

/-! ## An overflow at the level of a RUN -/

/-- R142: the instruction word that an overflow records is the word fetched, since a word that decodes is the encoding of its
instruction. -/
theorem stepAt_of_overflow {W : Width} {s : State} {i : Instr} {w r d : Int} (hrun : s.state.runs = true)
    (hw : s.memRead s.cursor = .ok w) (hi : decode w = .ok i) (hexec : execAt W i s = storeExact W (encode i) r d s)
    (hr : W.fits r = false) : stepAt W s = .next (s.faultedWith .arithmeticOverflow w) := by
  rw [stepAt_of_fetchDecode_ok hrun (State.fetchDecode_of_memRead hw hi), hexec, encode_of_decode hi, storeExact_of_not_fits hr,
    State.faultEntry_eq_faultedWith (ne_faulted_of_runs hrun)]

/-- Settles O30: `stepAt_of_overflow` for the sum and for the product. -/
theorem overflowFaultsWithTheFetchedWord : Obligations.OverflowFaultsWithTheFetchedWord := by
  intro W m1 m2 dst s w a b d hs hw ha hb hd
  have hrun := runs_of_ready_or_waiting hs
  exact ⟨fun hi => stepAt_of_overflow hrun hw hi (execAt_add_of_resolved ha hb hd W dst),
    fun hi => stepAt_of_overflow hrun hw hi (execAt_mul_of_resolved ha hb hd W dst)⟩

end Sys2Proof.Machine

/-! READ and WRITE (spec/42_io.md): what they do once their parameter resolves (R150, R151), and the host's side of the two queues, first
in and first out (R152). -/

namespace Sys2Proof.Machine

/-! ## READ -/

/-- R150: once the destination resolves, READ is `readInto`. -/
theorem exec_read_of_resolved {s : State} {d : Int} (hd : s.resolveDst 1 = .ok d) (dst : Nat) :
    exec (.read dst) s = .next (readInto d s) :=
  orRaise_of_ok hd _

theorem readInto_of_input_nil {s : State} (hin : s.input = []) (d : Int) : readInto d s = s.finish s.cursor .waiting := by
  simp [readInto, hin]

theorem readInto_of_input_cons {s : State} {v : Int} {rest : List Int} (hin : s.input = v :: rest) (d : Int) :
    readInto d s = (s.dropInput.storeCell d v).finish (s.cursor + 2) .ready := by
  simp [readInto, hin]

/-- Settles O32: what is stored is the front of `input`, and memory in canonical form reads it back at the destination alone. -/
theorem readStoresTheFrontOfInput : Obligations.ReadStoresTheFrontOfInput := by
  intro dst s d v rest hwf hd hin
  obtain ⟨-, hrange⟩ := State.resolveDst_eq_ok.1 hd
  have hrest : s.dropInput.input = rest := by simp [hin]
  refine ⟨(s.dropInput.storeCell d v).finish (s.cursor + 2) .ready, ?_, ?_, ?_⟩
  · rw [exec_read_of_resolved hd, readInto_of_input_cons hin]
  · exact State.memRead_storeCell (s := s.dropInput) hwf hrange v
  · rw [← hrest]
    rfl

/-- Settles O33: an empty `input` is the Waiting case of `readInto`, and the cursor is set to itself. -/
theorem readBlocksOnEmptyInput : Obligations.ReadBlocksOnEmptyInput := by
  intro dst s d hd hin
  rw [exec_read_of_resolved hd, readInto_of_input_nil hin]
  rfl

/-! ## WRITE -/

/-- Settles O34: the only parameter resolves, so what is left is the effect itself. -/
theorem writeAppendsToOutput : Obligations.WriteAppendsToOutput :=
  fun _ _ _ ha => orRaise_of_ok ha _

/-! ## The queues from the host's side -/

theorem drain_of_output_nil {s : State} (h : s.output = []) : drain s = ([], s) := by
  simp [drain, drainUpTo, popOut, h]

/-- One POP_OUT of a drain: the front comes first, and the rest is the drain of the Machine without it. -/
theorem drain_of_output_cons {s : State} {v : Int} {rest : List Int} (h : s.output = v :: rest) :
    drain s = (v :: (drain s.dropOutput).1, (drain s.dropOutput).2) := by
  simp [drain, drainUpTo, popOut, h]

/-- R152: a drain gives the whole of `output`, in order. By induction on `output`. -/
theorem drain_eq (s : State) : drain s = (s.output, { s with output := [] }) := by
  induction h : s.output generalizing s with
  | nil => rw [drain_of_output_nil h, ← h]
  | cons v rest ih =>
    have hrest : s.dropOutput.output = rest := by simp [h]
    rw [drain_of_output_cons h, ih s.dropOutput hrest]
    rfl

/-- R152: values pushed one after another stand at the back of `input`, in order. By induction on the values. -/
theorem feed_eq (vals : List Int) (s : State) : feed vals s = { s with input := s.input ++ vals } := by
  induction vals generalizing s with
  | nil => simp [feed]
  | cons v vals ih =>
    calc feed (v :: vals) s = feed vals (s.pushInput v) := rfl
      _ = { s with input := s.input ++ [v] ++ vals } := ih (s.pushInput v)
      _ = { s with input := s.input ++ v :: vals } := by rw [List.append_assoc, List.singleton_append]

/-- Settles O49: `drain_eq` and `feed_eq`. -/
theorem drainIsFirstInFirstOut : Obligations.DrainIsFirstInFirstOut := ⟨drain_eq, feed_eq⟩

end Sys2Proof.Machine

/-! JT and JF (spec/43_branch.md): where they set the cursor once both parameters resolve (R160, R161), and a taken target outside memory,
which the jump accepts and the next fetch faults on (R163). -/

namespace Sys2Proof.Machine

/-! ## The condition and the two ends of a jump -/

theorem wordIsTrue_of_ne_zero {a : Int} (h : a ≠ 0) : wordIsTrue a = true := decide_eq_true h

theorem wordIsTrue_zero : wordIsTrue 0 = false := rfl

theorem jumpIf_true (b : Int) (s : State) : jumpIf true b s = s.finish b .ready := rfl

theorem jumpIf_false (b : Int) (s : State) : jumpIf false b s = s.finish (s.cursor + 3) .ready := rfl

/-! ## The two meanings where both parameters resolve -/

section
variable {m1 m2 : Mode} {s : State} {a b : Int} (ha : s.resolveSrc 1 m1 = .ok a) (hb : s.resolveSrc 2 m2 = .ok b)
include ha hb

/-- Format SS where both parameters resolve: what the instruction answers. -/
theorem withSS_of_resolved (f : Int → Int → Result) : withSS m1 m2 s f = f a b :=
  (orRaise_of_ok ha _).trans (orRaise_of_ok hb _)

theorem exec_jt_of_resolved : exec (.jt m1 m2) s = .next (jumpIf (wordIsTrue a) b s) :=
  withSS_of_resolved ha hb _

theorem exec_jf_of_resolved : exec (.jf m1 m2) s = .next (jumpIf (!wordIsTrue a) b s) :=
  withSS_of_resolved ha hb _

/-- R160, taken. -/
theorem exec_jt_of_ne_zero (h : a ≠ 0) : exec (.jt m1 m2) s = .next (s.finish b .ready) := by
  rw [exec_jt_of_resolved ha hb, wordIsTrue_of_ne_zero h, jumpIf_true]

/-- R160, not taken. -/
theorem exec_jt_of_eq_zero (h : a = 0) : exec (.jt m1 m2) s = .next (s.finish (s.cursor + 3) .ready) := by
  rw [exec_jt_of_resolved ha hb, h, wordIsTrue_zero, jumpIf_false]

/-- R161, taken. -/
theorem exec_jf_of_eq_zero (h : a = 0) : exec (.jf m1 m2) s = .next (s.finish b .ready) := by
  rw [exec_jf_of_resolved ha hb, h, wordIsTrue_zero, Bool.not_false, jumpIf_true]

/-- R161, not taken. -/
theorem exec_jf_of_ne_zero (h : a ≠ 0) : exec (.jf m1 m2) s = .next (s.finish (s.cursor + 3) .ready) := by
  rw [exec_jf_of_resolved ha hb, wordIsTrue_of_ne_zero h, Bool.not_true, jumpIf_false]

end

/-- Settles O35: the two ends of JT. -/
theorem jumpIfTrueSetsTheCursor : Obligations.JumpIfTrueSetsTheCursor := fun _ _ _ _ _ ha hb =>
  ⟨exec_jt_of_ne_zero ha hb, exec_jt_of_eq_zero ha hb⟩

/-- Settles O36: the two ends of JF. -/
theorem jumpIfFalseSetsTheCursor : Obligations.JumpIfFalseSetsTheCursor := fun _ _ _ _ _ ha hb =>
  ⟨exec_jf_of_eq_zero ha hb, exec_jf_of_ne_zero ha hb⟩

/-! ## A taken target outside memory -/

/-- R112: from a Ready Machine whose cursor was set outside memory, the RUN faults at fetch with the cursor. -/
theorem step_finish_of_not_inRange {s : State} {b : Int} (hb : s.inRange b = false) :
    step (s.finish b .ready) = .next ((s.finish b .ready).faultedWith .addressOutOfRange b) :=
  fetchOutsideMemoryFaults _ (.inl rfl) (State.inRange_eq_false.1 hb)

/-- R163: a jump that ends at its target, whichever instruction it was, is Ready there, and a target outside memory is the next RUN's
fault. -/
theorem target_checked_at_next_fetch {r : Result} {s : State} {b : Int} (hr : r = .next (s.finish b .ready)) :
    ∃ t, r = .next t ∧ t.state = .ready ∧ t.cursor = b ∧
      (s.inRange b = false → ∃ u, step t = .next u ∧ u = t.faultedWith .addressOutOfRange b ∧ u.cursor = b) :=
  ⟨s.finish b .ready, hr, rfl, rfl, fun hb => ⟨_, step_finish_of_not_inRange hb, rfl, rfl⟩⟩

/-- Settles O37: `target_checked_at_next_fetch` for the taken end of JT and of JF. -/
theorem badJumpTargetFaultsAtTheNextFetch : Obligations.BadJumpTargetFaultsAtTheNextFetch := fun _ _ _ _ _ ha hb =>
  ⟨fun h => target_checked_at_next_fetch (exec_jt_of_ne_zero ha hb h),
    fun h => target_checked_at_next_fetch (exec_jf_of_eq_zero ha hb h)⟩

end Sys2Proof.Machine

/-! LT and EQ (spec/44_compare.md): the truth value of the comparison is stored (R170, R171), as exactly the word 1 or 0 (R172). -/

namespace Sys2Proof.Machine

/-! ## The truth value as a word -/

/-- R172: the truth word of a proposition that can be decided. -/
theorem truthWord_decide (p : Prop) [Decidable p] : truthWord (decide p) = if p then 1 else 0 := by
  by_cases h : p <;> simp [truthWord, h]

/-! ## The two meanings where every parameter resolves -/

section
variable {m1 m2 : Mode} {s : State} {a b d : Int} (ha : s.resolveSrc 1 m1 = .ok a) (hb : s.resolveSrc 2 m2 = .ok b)
  (hd : s.resolveDst 3 = .ok d)
include ha hb hd

/-- R170: LT stores the truth word of the signed comparison. -/
theorem exec_lt_of_resolved (dst : Nat) :
    exec (.lt m1 m2 dst) s = .next (s.storeAndAdvance d (if a < b then 1 else 0)) := by
  rw [← truthWord_decide]
  exact withSSD_of_resolved ha hb hd _

/-- R171: EQ stores the truth word of the equality. -/
theorem exec_eq_of_resolved (dst : Nat) :
    exec (.eq m1 m2 dst) s = .next (s.storeAndAdvance d (if a = b then 1 else 0)) := by
  rw [← truthWord_decide]
  exact withSSD_of_resolved ha hb hd _

end

/-- R118, R119: an instruction of format SSD that ends by storing `r` at its resolved destination `d`, as seen in canonical memory. -/
theorem stores_of_eq_storeAndAdvance {s : State} {d r : Int} {res : Result} (hwf : s.mem.wf = true) (hd : s.resolveDst 3 = .ok d)
    (hres : res = .next (s.storeAndAdvance d r)) :
    ∃ t, res = .next t ∧ (∀ x, t.memRead x = if x = d then .ok r else s.memRead x) ∧
      t = { s with mem := t.mem, cursor := s.cursor + 4, state := .ready } := by
  obtain ⟨-, hin⟩ := State.resolveDst_eq_ok.1 hd
  exact ⟨s.storeAndAdvance d r, hres, State.memRead_storeAndAdvance hwf hin r, rfl⟩

/-- Settles O38: LT ends by storing the truth word, which canonical memory reads back at the destination alone. -/
theorem lessThanStoresTheTruthValue : Obligations.LessThanStoresTheTruthValue := fun _ _ dst _ _ _ _ hwf ha hb hd =>
  stores_of_eq_storeAndAdvance hwf hd (exec_lt_of_resolved ha hb hd dst)

/-- Settles O39: EQ ends by storing the truth word, which canonical memory reads back at the destination alone. -/
theorem equalsStoresTheTruthValue : Obligations.EqualsStoresTheTruthValue := fun _ _ dst _ _ _ _ hwf ha hb hd =>
  stores_of_eq_storeAndAdvance hwf hd (exec_eq_of_resolved ha hb hd dst)

end Sys2Proof.Machine

/-! HALT (spec/45_halt.md): it sets `state` alone, and nothing else ends a RUN in Halted, a fault included (R180, R182). -/

namespace Sys2Proof.Machine

/-- R180, R95: HALT has one encoding. -/
theorem decode_eq_halt {w : Int} : decode w = .ok .halt ↔ w = 99 := by
  constructor
  · intro h
    exact (encode_of_decode h).symm
  · rintro rfl
    exact decodeOfEncodeIsTheInstruction .halt rfl

/-- Halted is the state after HALT alone. -/
theorem stateAfter_eq_halted {i : Instr} {input : List Int} (h : stateAfter i input = .halted) : i = .halt := by
  cases i with
  | halt => rfl
  | read dst => cases input <;> nomatch h
  | _ => nomatch h

/-- Settles O40: HALT finishes with the cursor where it was. -/
theorem haltSetsHalted : Obligations.HaltSetsHalted := fun _ => rfl

/-- R180: a RUN with the word 99 at the cursor executes HALT. -/
theorem step_of_cell_eq_99 {s : State} (hrun : s.state.runs = true) (hpc : s.inRange s.cursor = true)
    (hw : s.cell s.cursor = 99) : step s = .next { s with state := .halted } := by
  have hf : s.fetchDecode = .ok .halt := State.fetchDecode_eq_ok.2 ⟨hpc, decode_eq_halt.2 hw⟩
  rw [step_of_fetchDecode_ok hrun hf, haltSetsHalted]

/-- R180, R182: a RUN that ends Halted has not faulted, so it has completed an instruction, which was HALT. -/
theorem step_ends_halted {s t : State} (hrun : s.state.runs = true) (h : step s = .next t) (ht : t.state = .halted) :
    s.inRange s.cursor = true ∧ s.cell s.cursor = 99 ∧ t = { s with state := .halted } := by
  obtain ⟨i, hpc, hdec, hc⟩ := completes_of_step hrun h (by simp [ht])
  obtain rfl : i = .halt := stateAfter_eq_halted (hc.state_eq.symm.trans ht)
  exact ⟨hpc, decode_eq_halt.1 hdec, hc⟩

/-- Settles O26: the two directions are `step_ends_halted` and `step_of_cell_eq_99`. -/
theorem onlyTheWord99Halts : Obligations.OnlyTheWord99Halts := by
  intro s hs
  have hrun := runs_of_ready_or_waiting hs
  refine ⟨⟨?_, ?_⟩, ?_⟩
  · rintro ⟨t, h, ht⟩
    obtain ⟨hpc, hw, -⟩ := step_ends_halted hrun h ht
    exact ⟨hpc, hw⟩
  · rintro ⟨hpc, hw⟩
    exact ⟨_, step_of_cell_eq_99 hrun hpc hw, rfl⟩
  · intro t h ht
    obtain ⟨-, -, rfl⟩ := step_ends_halted hrun h ht
    rfl

end Sys2Proof.Machine

/-! The host commands that look at or touch one Machine, PEEK, POKE and those of the queues and the status registers
(spec/46_host_commands.md R197 to R202), and the host procedures made of commands: DRIVE, seeding and the linear pipeline (R196, R209,
R210, R213). -/

namespace Sys2Proof.Machine

/-! ## PEEK and POKE -/

section

variable {W : Width} {a v : Int} {s : State}

/-- D26: an address that is a word is looked at. -/
theorem command_peek (ha : W.fits a = true) (s : State) : command W (.peek a) s = .next (peek a s) := if_pos ha

/-- D26: an address and a value that are words are used. -/
theorem command_poke (ha : W.fits a = true) (hv : W.fits v = true) (s : State) :
    command W (.poke a v) s = .next (poke a v s) := by
  simp [command, withWord, ha, hv]

theorem peek_of_memRead (h : s.memRead a = .ok v) : peek a s = (s, .okValue v) := by
  simp [peek, h]

theorem peek_of_not_inRange (h : s.inRange a = false) : peek a s = (s.faultEntry .addressOutOfRange a, .error) := by
  simp [peek, State.memRead, h]

theorem poke_of_inRange (h : s.inRange a = true) (v : Int) : poke a v s = (s.storeCell a v, .ok) := by
  simp [poke, State.memWrite, h]

theorem poke_of_not_inRange (h : s.inRange a = false) (v : Int) :
    poke a v s = (s.faultEntry .addressOutOfRange a, .error) := by
  simp [poke, State.memWrite, h]

end

/-- Settles O45: `MemRead` gives the cell or fails with the address, and fault entry records the first fault alone. -/
theorem peekReadsOrFaults : Obligations.PeekReadsOrFaults := by
  intro W s a ha
  rw [command_peek ha]
  refine ⟨fun h => ?_, fun h hs => ?_, fun h hs => ?_⟩
  · rw [peek_of_memRead (State.memRead_eq_ok.2 ⟨h, rfl⟩)]
  · rw [peek_of_not_inRange h, State.faultEntry_eq_faultedWith hs]
  · rw [peek_of_not_inRange h, State.faultEntry_of_faulted hs]

/-- Settles O46: the cell is stored, and canonical memory reads it back at that address alone; PEEK is such a read. -/
theorem pokeWritesOrFaults : Obligations.PokeWritesOrFaults := by
  intro W s a v hwf ha hv
  rw [command_poke ha hv]
  refine ⟨fun h => ?_, fun h hs => ?_, fun h hs => ?_⟩
  · have hread := State.memRead_storeCell hwf h v
    have hself : (s.storeCell a v).memRead a = .ok v := by rw [hread, if_pos rfl]
    refine ⟨s.storeCell a v, ?_, rfl, hread, ?_⟩
    · rw [poke_of_inRange h]
    · rw [command_peek ha, peek_of_memRead hself]
  · rw [poke_of_not_inRange h, State.faultEntry_eq_faultedWith hs]
  · rw [poke_of_not_inRange h, State.faultEntry_of_faulted hs]

/-! ## The queues and the status registers -/

/-- D26: a value that is a word is pushed. -/
theorem command_pushIn {W : Width} {v : Int} (hv : W.fits v = true) (s : State) :
    command W (.pushIn v) s = .next (s.pushInput v, .nothing) := if_pos hv

theorem popOut_of_output_nil {s : State} (h : s.output = []) : popOut s = (s, .popped none) := by
  simp [popOut, h]

theorem popOut_of_output_cons {s : State} {v : Int} {rest : List Int} (h : s.output = v :: rest) :
    popOut s = ({ s with output := rest }, .popped (some v)) := by
  simp [popOut, State.dropOutput, h]

/-- Settles O47: PUSH_IN of a word, POP_OUT of an empty and of a non-empty `output`, and the two answers. -/
theorem queueAndStatusCommands : Obligations.QueueAndStatusCommands :=
  ⟨fun _ s _ hv => command_pushIn hv s,
    fun _ _ h => congrArg Host.Outcome.next (popOut_of_output_nil h),
    fun _ _ _ _ h => congrArg Host.Outcome.next (popOut_of_output_cons h),
    fun _ _ => ⟨rfl, rfl⟩⟩

/-! ## DRIVE -/

section

variable {W : Width} {s t : State}

theorem runState_of_stepAt (h : stepAt W s = .next t) : runState W s = t := by
  simp [runState, h]

/-- R196: a Ready Machine is run once and driven on. -/
theorem drive_succ_of_ready (hs : s.state = .ready) (n : Nat) : drive W (n + 1) s = drive W n (runState W s) := if_pos hs

/-- R196: a Machine that is not Ready is left as it is, whatever the bound. -/
theorem drive_of_not_ready (hs : s.state ≠ .ready) (n : Nat) : drive W n s = some s := by
  cases n with
  | zero => exact if_neg hs
  | succ n => exact if_neg hs

/-- R196: the Machine DRIVE answers is not Ready. By induction on its rounds. -/
theorem state_ne_ready_of_drive {n : Nat} (h : drive W n s = some t) : t.state ≠ .ready := by
  fun_induction drive W n s with
  | case1 s hs => nomatch h
  | case2 s hs => exact Option.some.inj h ▸ hs
  | case3 n s hs ih => exact ih h
  | case4 n s hs => exact Option.some.inj h ▸ hs

/-- Log 9: a larger bound answers the same. By induction on the rounds of the smaller one. -/
theorem drive_of_le {n m : Nat} (h : drive W n s = some t) (hnm : n ≤ m) : drive W m s = some t := by
  fun_induction drive W n s generalizing m with
  | case1 s hs => nomatch h
  | case2 s hs => exact drive_of_not_ready hs m ▸ h
  | case3 n s hs ih =>
    obtain ⟨k, rfl⟩ := Nat.exists_eq_add_of_le' hnm
    exact drive_succ_of_ready hs (k + n) ▸ ih h (Nat.le_add_left n k)
  | case4 n s hs => exact drive_of_not_ready hs m ▸ h

end

/-- Settles O51: the equations of DRIVE, and the two inductions on its rounds. -/
theorem driveEndsOutsideReady : Obligations.DriveEndsOutsideReady := by
  refine fun W => ⟨fun n s t hs h => ?_, fun _ _ _ => state_ne_ready_of_drive, fun n _ hs => drive_of_not_ready hs n,
    fun _ _ _ _ => drive_of_le⟩
  rw [drive_succ_of_ready hs, runState_of_stepAt h]

/-! ## Seeding and the linear pipeline -/

/-- Settles O52: feeding a Machine with an empty `input`. -/
theorem seededTopologyInputs : Obligations.SeededTopologyInputs := fun _ _ _ _ => rfl

theorem HostEnd.cons_eq_finished {m : State} {e : HostEnd} {r : Option Int} {ms : Topology} (h : e.cons m = .finished r ms) :
    ∃ ms', e = .finished r ms' ∧ ms = m :: ms' := by
  cases e with
  | finished r' ms' =>
    obtain ⟨rfl, rfl⟩ := HostEnd.finished.inj h
    exact ⟨ms', rfl, rfl⟩
  | _ => nomatch h

section

variable {W : Width} {fuel : Nat} {carry : List Int} {m : State} {rest ms' : Topology} {r : Option Int}

/-- R210: a stage driven to Halted is drained, and what it gave is fed to the next. -/
theorem linearFrom_of_halted {t : State} (hd : drive W fuel (feed carry m) = some t) (ht : t.state = .halted) :
    linearFrom W fuel carry (m :: rest) = (linearFrom W fuel t.output rest).cons { t with output := [] } := by
  simp [linearFrom, hd, ht, drain_eq]

/-- R213: a pipeline that finishes has driven its first stage to Halted, any other end of a stage being the end of the run. -/
theorem halted_of_linearFrom_finished (h : linearFrom W fuel carry (m :: rest) = .finished r ms') :
    ∃ t, drive W fuel (feed carry m) = some t ∧ t.state = .halted := by
  unfold linearFrom at h
  split at h
  · nomatch h
  · rename_i t hd
    refine ⟨t, hd, ?_⟩
    split at h
    · assumption
    all_goals nomatch h

/-- R210, R213: every Machine of a pipeline that finishes is Halted and drained. By induction on the stages. -/
theorem linearFrom_finished {ms : Topology} (h : linearFrom W fuel carry ms = .finished r ms') :
    ms'.length = ms.length ∧ ∀ m ∈ ms', m.state = .halted ∧ m.output = [] := by
  induction ms generalizing carry ms' with
  | nil =>
    obtain ⟨-, rfl⟩ := HostEnd.finished.inj h
    exact ⟨rfl, nofun⟩
  | cons m rest ih =>
    obtain ⟨t, hd, ht⟩ := halted_of_linearFrom_finished h
    obtain ⟨tail, htail, rfl⟩ := HostEnd.cons_eq_finished (linearFrom_of_halted hd ht ▸ h)
    obtain ⟨hlen, hall⟩ := ih htail
    exact ⟨congrArg Nat.succ hlen, List.forall_mem_cons.2 ⟨⟨ht, rfl⟩, hall⟩⟩

end

/-- Settles O53: the stage equation, the empty Topology, and `linearFrom_finished` with nothing carried in. -/
theorem finishedPipelineHaltsEveryMachine : Obligations.FinishedPipelineHaltsEveryMachine :=
  ⟨fun _ _ _ _ _ _ => linearFrom_of_halted, fun _ _ _ => rfl, fun _ _ _ _ _ => linearFrom_finished⟩

end Sys2Proof.Machine

/-! The program text loader (spec/46_host_commands.md R191, R192, R263): tokens, their whitespace, and the decimal literals. A literal is
compared with Lean's own decimal numerals, `Nat.toDigits 10` and the value `Nat.ofDigitChars 10` of a list of digits. -/

namespace Sys2Proof.Machine

/-! ## Tokens -/

theorem splitCommas_ne_nil (x : List Char) : splitCommas x ≠ [] := by
  cases x with
  | nil => nofun
  | cons c cs =>
    unfold splitCommas
    split
    · nofun
    · split <;> nofun

theorem splitCommas_comma (x : List Char) : splitCommas (',' :: x) = [] :: splitCommas x := if_pos rfl

/-- A character that is no comma goes to the front of the first token. -/
theorem splitCommas_of_ne_comma {c : Char} (hc : c ≠ ',') {x t : List Char} {ts : List (List Char)} (h : splitCommas x = t :: ts) :
    splitCommas (c :: x) = (c :: t) :: ts := by
  simp [splitCommas, hc, h]

/-- R191: a text without a comma is one token. By induction on the text. -/
theorem splitCommas_of_comma_notMem {x : List Char} (h : ',' ∉ x) : splitCommas x = [x] := by
  induction x with
  | nil => rfl
  | cons c x ih =>
    exact splitCommas_of_ne_comma (Ne.symm (List.ne_of_not_mem_cons h)) (ih (List.not_mem_of_not_mem_cons h))

/-- R191: a comma ends a token. By induction on what stands before it. -/
theorem splitCommas_append_comma (x y : List Char) : splitCommas (x ++ ',' :: y) = splitCommas x ++ splitCommas y := by
  induction x with
  | nil => exact splitCommas_comma y
  | cons c x ih =>
    obtain ⟨t, ts, hx⟩ := List.exists_cons_of_ne_nil (splitCommas_ne_nil x)
    rw [hx] at ih
    by_cases hc : c = ','
    · subst hc
      rw [List.cons_append, splitCommas_comma, splitCommas_comma, ih, hx]
      rfl
    · rw [List.cons_append, splitCommas_of_ne_comma hc ih, splitCommas_of_ne_comma hc hx]
      rfl

theorem parseChars_append_comma (W : Width) (x y : List Char) :
    parseChars W (x ++ ',' :: y) = parseChars W x ++ parseChars W y := by
  simp [parseChars, splitCommas_append_comma]

/-- R192: one token gives the word it stands for, or nothing. -/
theorem parseChars_of_comma_notMem (W : Width) {x : List Char} (h : ',' ∉ x) : parseChars W x = (tokenWord W x).toList := by
  rw [parseChars, splitCommas_of_comma_notMem h]
  cases hx : tokenWord W x <;> simp [hx]

/-- Settles O54: `parseChars_append_comma`, and a token that gives nothing. -/
theorem parseGoesTokenByToken : Obligations.ParseGoesTokenByToken := by
  refine fun W x y => ⟨parseChars_append_comma W x y, fun hx ht => ?_⟩
  rw [parseChars_append_comma, parseChars_of_comma_notMem W hx, ht]
  rfl

/-! ## Whitespace around a token -/

theorem trim_eq (x : List Char) : trim x = (x.dropWhile isSpace).rdropWhile isSpace := rfl

/-- A comma is no whitespace. -/
theorem comma_notMem_of_isSpace {x : List Char} (h : ∀ c ∈ x, isSpace c = true) : ',' ∉ x :=
  fun hx => nomatch h ',' hx

theorem trim_append_left {before : List Char} (hb : ∀ c ∈ before, isSpace c = true) (x : List Char) :
    trim (before ++ x) = trim x := by
  rw [trim_eq, List.dropWhile_append_of_pos hb, trim_eq]

theorem trim_append_right (x : List Char) {after : List Char} (ha : ∀ c ∈ after, isSpace c = true) :
    trim (x ++ after) = trim x := by
  rw [trim_eq, trim_eq, List.dropWhile_append]
  split
  next hx => rw [List.dropWhile_eq_nil_iff.2 ha, List.isEmpty_iff.1 hx]
  next =>
    have ha' : ∀ c ∈ after.reverse, isSpace c = true := fun c hc => ha c (List.mem_reverse.1 hc)
    rw [List.rdropWhile, List.reverse_append, List.dropWhile_append_of_pos ha', List.rdropWhile]

theorem trim_of_no_space {t : List Char} (ht : ∀ c ∈ t, isSpace c = false) : trim t = t := by
  have hd : t.dropWhile isSpace = t := List.dropWhile_eq_self_iff.2 fun hl => Bool.not_eq_true _ ▸ ht _ (List.getElem_mem hl)
  have hr : t.rdropWhile isSpace = t := List.rdropWhile_eq_self_iff.2 fun hl => Bool.not_eq_true _ ▸ ht _ (List.getLast_mem hl)
  rw [trim_eq, hd, hr]

/-- R191: whitespace around characters that are none is removed, and nothing else. -/
theorem trim_append {before t after : List Char} (hb : ∀ c ∈ before, isSpace c = true) (ht : ∀ c ∈ t, isSpace c = false)
    (ha : ∀ c ∈ after, isSpace c = true) : trim (before ++ t ++ after) = t := by
  rw [trim_append_right _ ha, trim_append_left hb, trim_of_no_space ht]

theorem trim_of_isSpace {x : List Char} (h : ∀ c ∈ x, isSpace c = true) : trim x = [] := by
  rw [trim_eq, List.dropWhile_eq_nil_iff.2 h, List.rdropWhile_nil]

/-- What `trim` removes is whitespace. -/
theorem exists_eq_append_trim (x : List Char) :
    ∃ before after, (∀ c ∈ before, isSpace c = true) ∧ (∀ c ∈ after, isSpace c = true) ∧ x = before ++ trim x ++ after := by
  refine ⟨x.takeWhile isSpace, (x.dropWhile isSpace).rtakeWhile isSpace, fun _ => List.mem_takeWhile_imp,
    fun _ => List.mem_rtakeWhile_imp, ?_⟩
  rw [trim_eq, List.append_assoc, List.rdropWhile_append_rtakeWhile, List.takeWhile_append_dropWhile]

/-- A character that is no whitespace stays when the whitespace at the end is removed. -/
theorem mem_rdropWhile_isSpace {x : List Char} {c : Char} (hc : c ∈ x) (hs : isSpace c = false) : c ∈ x.rdropWhile isSpace := by
  rw [← List.rdropWhile_append_rtakeWhile (p := isSpace) (l := x), List.mem_append] at hc
  exact hc.resolve_right fun h => by simp [List.mem_rtakeWhile_imp h] at hs

/-- Every character of a token that is no whitespace stays. -/
theorem mem_trim {x : List Char} {c : Char} (hc : c ∈ x) (hs : isSpace c = false) : c ∈ trim x := by
  rw [← List.takeWhile_append_dropWhile (p := isSpace) (l := x), List.mem_append] at hc
  have hd : c ∈ x.dropWhile isSpace := hc.resolve_left fun h => by simp [List.mem_takeWhile_imp h] at hs
  exact mem_rdropWhile_isSpace hd hs

theorem rdropWhile_append_of_ne_nil {p : Char → Bool} {y : List Char} (hy : y.rdropWhile p ≠ []) (x : List Char) :
    (x ++ y).rdropWhile p = x ++ y.rdropWhile p := by
  have h : ¬ (y.reverse.dropWhile p).isEmpty = true := fun h => hy (by rw [List.rdropWhile, List.isEmpty_iff.1 h, List.reverse_nil])
  rw [List.rdropWhile, List.reverse_append, List.dropWhile_append, if_neg h, List.reverse_append, List.reverse_reverse,
    List.rdropWhile]

/-- After a character that is no whitespace only the whitespace at the end is removed, and something stands in front of the rest. -/
theorem trim_append_of_mem {x y : List Char} {c : Char} (hc : c ∈ x) (hs : isSpace c = false) (hy : y.rdropWhile isSpace ≠ []) :
    ∃ a l, trim (x ++ y) = a :: (l ++ y.rdropWhile isSpace) := by
  have hx : x.dropWhile isSpace ≠ [] := fun h => by simp [List.dropWhile_eq_nil_iff.1 h c hc] at hs
  obtain ⟨a, l, hal⟩ := List.exists_cons_of_ne_nil hx
  refine ⟨a, l, ?_⟩
  rw [trim_eq, List.dropWhile_append, if_neg (by simp [hal]), rdropWhile_append_of_ne_nil hy, hal, List.cons_append]

/-! ## Decimal digits -/

theorem isSpace_iff {c : Char} : isSpace c = true ↔ c = ' ' ∨ c = '\t' ∨ c = '\r' ∨ c = '\n' := by
  simp [isSpace, or_assoc]

/-- The digits are the ten of ASCII (log 14). -/
theorem digitValue_eq_some {c : Char} {d : Nat} : digitValue c = some d ↔ c.isDigit = true ∧ c.toNat - 48 = d := by
  have h : c.isDigit = true ↔ 48 ≤ c.toNat ∧ c.toNat ≤ 57 := Char.isDigit_iff_toNat
  simp [digitValue, h]

theorem isSpace_of_isDigit {c : Char} (h : c.isDigit = true) : isSpace c = false := by
  rw [← Bool.not_eq_true, isSpace_iff]
  rintro (rfl | rfl | rfl | rfl) <;> simp at h

/-- A digit is the numeral of its value. -/
theorem toDigits_of_isDigit {c : Char} (h : c.isDigit = true) : Nat.toDigits 10 (c.toNat - 48) = [c] := by
  have hc : 48 ≤ c.toNat ∧ c.toNat ≤ 57 := Char.isDigit_iff_toNat.1 h
  have hlt : c.toNat - 48 < 10 := by omega
  have hchar : (c.toNat - 48).digitChar = c := Char.toNat_inj.1 (by rw [Nat.toNat_digitChar_of_lt_ten hlt]; omega)
  rw [Nat.toDigits_of_lt_base hlt, hchar]

/-- R191: the value of digits, after those before them. By induction on the digits. -/
theorem decimalFrom_eq_some {acc n : Nat} {t : List Char} :
    decimalFrom acc t = some n ↔ (∀ c ∈ t, c.isDigit = true) ∧ Nat.ofDigitChars 10 t acc = n := by
  induction t generalizing acc with
  | nil => simp [decimalFrom]
  | cons c t ih =>
    rw [List.forall_mem_cons, Nat.ofDigitChars_cons, decimalFrom]
    split
    next d hd =>
      obtain ⟨hc, rfl⟩ := digitValue_eq_some.1 hd
      simp [ih, hc]
    next hd =>
      have hc : ¬ c.isDigit = true := fun hc => by simp [digitValue_eq_some.2 ⟨hc, rfl⟩] at hd
      simp [hc]

theorem decimal_eq_some {n : Nat} {t : List Char} :
    decimal t = some n ↔ t ≠ [] ∧ (∀ c ∈ t, c.isDigit = true) ∧ Nat.ofDigitChars 10 t 0 = n := by
  cases t with
  | nil => simp [decimal]
  | cons c t => simp only [decimal, decimalFrom_eq_some, ne_eq, reduceCtorEq, not_false_eq_true, true_and]

/-! ## Numerals -/

/-- The numeral of `n` with leading zeros, as the statements write it. -/
def numeral (zeros n : Nat) : List Char := List.replicate zeros '0' ++ Nat.toDigits 10 n

theorem numeral_ne_nil (zeros n : Nat) : numeral zeros n ≠ [] := by
  simp [numeral, Nat.toDigits_ne_nil]

theorem isDigit_of_mem_numeral {zeros n : Nat} {c : Char} (h : c ∈ numeral zeros n) : c.isDigit = true := by
  obtain h | h := List.mem_append.1 h
  · rw [List.eq_of_mem_replicate h]
    rfl
  · exact Nat.isDigit_of_mem_toDigits (by decide) (by decide) h

theorem ofDigitChars_numeral (zeros n : Nat) : Nat.ofDigitChars 10 (numeral zeros n) 0 = n := by
  rw [numeral, Nat.ofDigitChars_append, Nat.ofDigitChars_replicate_zero, Nat.mul_zero, Nat.ofDigitChars_ten_toDigits]

/-- One more digit at the end of a numeral: after zeros alone they all lead, and else the value shifts by one place. -/
theorem numeral_append_digit (zeros n : Nat) {c : Char} (hc : c.isDigit = true) :
    ∃ zeros', numeral zeros n ++ [c] = numeral zeros' (10 * n + (c.toNat - 48)) := by
  have hd := toDigits_of_isDigit hc
  rcases Nat.eq_zero_or_pos n with rfl | hn
  · refine ⟨zeros + 1, ?_⟩
    simp [numeral, hd, Nat.toDigits_zero, List.replicate_succ']
  · have hlt : c.toNat - 48 < 10 := by
      have : 48 ≤ c.toNat ∧ c.toNat ≤ 57 := Char.isDigit_iff_toNat.1 hc
      omega
    refine ⟨zeros, ?_⟩
    rw [numeral, List.append_assoc, ← hd, Nat.toDigits_append_toDigits (by decide) hn hlt, numeral]

/-- R191: one or more digits are a numeral of their value. By induction on the digits, the last one apart. -/
theorem exists_numeral {t : List Char} (hne : t ≠ []) (ht : ∀ c ∈ t, c.isDigit = true) :
    ∃ zeros, t = numeral zeros (Nat.ofDigitChars 10 t 0) := by
  induction t using List.reverseRecOn with
  | nil => exact absurd rfl hne
  | append_singleton t c ih =>
    have hc : c.isDigit = true := ht c (by simp)
    rw [Nat.ofDigitChars_append, Nat.ofDigitChars_cons, Nat.ofDigitChars_nil]
    by_cases htn : t = []
    · subst htn
      exact ⟨0, by simp [numeral, toDigits_of_isDigit hc]⟩
    · obtain ⟨zeros, hz⟩ := ih htn fun d hd => ht d (List.mem_append_left _ hd)
      obtain ⟨zeros', hz'⟩ := numeral_append_digit zeros (Nat.ofDigitChars 10 t 0) hc
      exact ⟨zeros', (congrArg (· ++ [c]) hz).trans hz'⟩

theorem decimal_eq_some_iff_numeral {n : Nat} {t : List Char} : decimal t = some n ↔ ∃ zeros, t = numeral zeros n := by
  rw [decimal_eq_some]
  constructor
  · rintro ⟨hne, ht, rfl⟩
    exact exists_numeral hne ht
  · rintro ⟨zeros, rfl⟩
    exact ⟨numeral_ne_nil zeros n, fun _ => isDigit_of_mem_numeral, ofDigitChars_numeral zeros n⟩

/-! ## Integer literals -/

theorem integerLiteral_minus (t : List Char) : integerLiteral ('-' :: t) = (decimal t).map fun (n : Nat) => -(n : Int) := by
  simp [integerLiteral]

theorem integerLiteral_of_ne_minus {c : Char} (hc : c ≠ '-') (t : List Char) :
    integerLiteral (c :: t) = (decimal (c :: t)).map fun (n : Nat) => (n : Int) := if_neg hc

theorem integerLiteral_numeral (zeros n : Nat) : integerLiteral (numeral zeros n) = some (n : Int) := by
  have hd : decimal (numeral zeros n) = some n := decimal_eq_some_iff_numeral.2 ⟨zeros, rfl⟩
  obtain ⟨c, t, ht⟩ := List.exists_cons_of_ne_nil (numeral_ne_nil zeros n)
  have hc : c ≠ '-' := by
    rintro rfl
    exact absurd (isDigit_of_mem_numeral (ht ▸ List.mem_cons_self)) (by decide)
  rw [ht] at hd ⊢
  rw [integerLiteral_of_ne_minus hc, hd]
  rfl

theorem integerLiteral_minus_numeral (zeros n : Nat) : integerLiteral ('-' :: numeral zeros n) = some (-(n : Int)) := by
  rw [integerLiteral_minus, decimal_eq_some_iff_numeral.2 ⟨zeros, rfl⟩]
  rfl

/-- R191: an integer literal is a numeral, or `-` and a numeral. -/
theorem integerLiteral_cases {t : List Char} {v : Int} (h : integerLiteral t = some v) :
    ∃ zeros n, t = numeral zeros n ∨ t = '-' :: numeral zeros n := by
  cases t with
  | nil => nomatch h
  | cons c t =>
    by_cases hc : c = '-'
    · subst hc
      obtain ⟨n, hn, -⟩ := Option.map_eq_some_iff.1 (integerLiteral_minus t ▸ h)
      obtain ⟨zeros, rfl⟩ := decimal_eq_some_iff_numeral.1 hn
      exact ⟨zeros, n, .inr rfl⟩
    · obtain ⟨n, hn, -⟩ := Option.map_eq_some_iff.1 (integerLiteral_of_ne_minus hc t ▸ h)
      obtain ⟨zeros, hz⟩ := decimal_eq_some_iff_numeral.1 hn
      exact ⟨zeros, n, .inl hz⟩

/-- The first character of an integer literal is `-` or a digit, and every later one is a digit. -/
theorem integerLiteral_chars {c : Char} {t : List Char} {v : Int} (h : integerLiteral (c :: t) = some v) :
    (c = '-' ∨ c.isDigit = true) ∧ ∀ e ∈ t, e.isDigit = true := by
  obtain ⟨zeros, n, hz | hz⟩ := integerLiteral_cases h
  · have hall : ∀ e ∈ c :: t, e.isDigit = true := fun e he => isDigit_of_mem_numeral (hz ▸ he)
    obtain ⟨hc, ht⟩ := List.forall_mem_cons.1 hall
    exact ⟨.inr hc, ht⟩
  · obtain ⟨rfl, rfl⟩ := List.cons.inj hz
    exact ⟨.inl rfl, fun _ => isDigit_of_mem_numeral⟩

theorem char_of_integerLiteral {t : List Char} {v : Int} (h : integerLiteral t = some v) {c : Char} (hc : c ∈ t) :
    c = '-' ∨ c.isDigit = true := by
  cases t with
  | nil => nomatch hc
  | cons a t =>
    obtain ⟨ha, ht⟩ := integerLiteral_chars h
    obtain rfl | hc := List.mem_cons.1 hc
    · exact ha
    · exact .inr (ht c hc)

theorem isSpace_of_integerLiteral {t : List Char} {v : Int} (h : integerLiteral t = some v) {c : Char} (hc : c ∈ t) :
    isSpace c = false := by
  obtain rfl | hd := char_of_integerLiteral h hc
  · rfl
  · exact isSpace_of_isDigit hd

/-- After a character that is no whitespace an integer literal goes on with digits, up to the whitespace at the end. -/
theorem isDigit_of_integerLiteral_trim_append {x y : List Char} {c e : Char} {v : Int} (hc : c ∈ x) (hs : isSpace c = false)
    (he : e ∈ y.rdropWhile isSpace) (h : integerLiteral (trim (x ++ y)) = some v) : e.isDigit = true := by
  obtain ⟨a, l, hal⟩ := trim_append_of_mem hc hs (List.ne_nil_of_mem he)
  exact (integerLiteral_chars (hal ▸ h)).2 e (List.mem_append_right l he)

/-- The digits as the statements list them. -/
theorem mem_digits_of_isDigit {c : Char} (h : c.isDigit = true) : c ∈ ['0', '1', '2', '3', '4', '5', '6', '7', '8', '9'] := by
  have hc : 48 ≤ c.toNat ∧ c.toNat ≤ 57 := Char.isDigit_iff_toNat.1 h
  have hmem : Char.ofNat c.toNat ∈ ['0', '1', '2', '3', '4', '5', '6', '7', '8', '9'] := by
    obtain ⟨h1, h2⟩ := hc
    interval_cases c.toNat <;> decide
  rwa [Char.ofNat_toNat] at hmem

/-! ## What a token gives -/

section

variable {W : Width} {x : List Char}

/-- R191: a token that is an integer literal gives its value, where that is a word. -/
theorem parseChars_of_integerLiteral {v : Int} (hx : ',' ∉ x) (h : integerLiteral (trim x) = some v) :
    parseChars W x = if W.fits v then [v] else [] := by
  rw [parseChars_of_comma_notMem W hx, tokenWord, h]
  cases hv : W.fits v <;> simp [hv]

/-- R191: a token that is none gives nothing. -/
theorem parseChars_of_no_integerLiteral (hx : ',' ∉ x) (h : ∀ v, integerLiteral (trim x) ≠ some v) : parseChars W x = [] := by
  rw [parseChars_of_comma_notMem W hx, tokenWord, Option.eq_none_iff_forall_ne_some.2 h]
  rfl

/-- R191: an integer literal between whitespace. -/
theorem parseChars_literal {before t after : List Char} {v : Int} (h : integerLiteral t = some v)
    (hb : ∀ c ∈ before, isSpace c = true) (ha : ∀ c ∈ after, isSpace c = true) :
    parseChars W (before ++ t ++ after) = if W.fits v then [v] else [] := by
  have ht : ',' ∉ t := fun hm => by simpa using char_of_integerLiteral h hm
  refine parseChars_of_integerLiteral ?_ ?_
  · simp [comma_notMem_of_isSpace hb, ht, comma_notMem_of_isSpace ha]
  · rw [trim_append hb (fun _ => isSpace_of_integerLiteral h) ha, h]

/-- R191: a token that gives a word is a numeral, or `-` and a numeral, between whitespace. -/
theorem parseChars_of_no_form (hx : ',' ∉ x)
    (h : ∀ (before after : List Char) (zeros n : Nat), (∀ c ∈ before, isSpace c = true) → (∀ c ∈ after, isSpace c = true) →
      x ≠ before ++ numeral zeros n ++ after ∧ x ≠ before ++ '-' :: numeral zeros n ++ after) :
    parseChars W x = [] := by
  refine parseChars_of_no_integerLiteral hx fun v hv => ?_
  obtain ⟨before, after, hb, ha, hform⟩ := exists_eq_append_trim x
  obtain ⟨zeros, n, hz | hz⟩ := integerLiteral_cases hv
  · exact (h before after zeros n hb ha).1 (hz ▸ hform)
  · exact (h before after zeros n hb ha).2 (hz ▸ hform)

/-- The empty token, and whitespace alone. -/
theorem parseChars_of_isSpace (h : ∀ c ∈ x, isSpace c = true) : parseChars W x = [] := by
  refine parseChars_of_no_integerLiteral (comma_notMem_of_isSpace h) fun v hv => ?_
  rw [trim_of_isSpace h] at hv
  nomatch hv

/-- A character that no integer literal has. -/
theorem parseChars_of_mem_other {c : Char} (hx : ',' ∉ x) (hc : c ∈ x) (hs : isSpace c = false)
    (hother : c ∉ ['-', '0', '1', '2', '3', '4', '5', '6', '7', '8', '9']) : parseChars W x = [] := by
  refine parseChars_of_no_integerLiteral hx fun v hv => ?_
  obtain rfl | hd := char_of_integerLiteral hv (mem_trim hc hs)
  · exact hother List.mem_cons_self
  · exact hother (List.mem_cons_of_mem _ (mem_digits_of_isDigit hd))

/-- Whitespace between two characters that are none. -/
theorem parseChars_of_space_inside {y : List Char} {c d e : Char} (hxy : ',' ∉ x ++ d :: y) (hc : c ∈ x) (hcs : isSpace c = false)
    (hd : isSpace d = true) (he : e ∈ y) (hes : isSpace e = false) : parseChars W (x ++ d :: y) = [] := by
  refine parseChars_of_no_integerLiteral hxy fun v hv => ?_
  have hy : y.rdropWhile isSpace ≠ [] := List.ne_nil_of_mem (mem_rdropWhile_isSpace he hes)
  have hmem : d ∈ (d :: y).rdropWhile isSpace := rdropWhile_append_of_ne_nil hy [d] ▸ List.mem_cons_self
  simp [isSpace_of_isDigit (isDigit_of_integerLiteral_trim_append hc hcs hmem hv)] at hd

/-- A `-` that is not in front. -/
theorem parseChars_of_minus_inside {y : List Char} {c : Char} (hxy : ',' ∉ x ++ '-' :: y) (hc : c ∈ x) (hs : isSpace c = false) :
    parseChars W (x ++ '-' :: y) = [] := by
  refine parseChars_of_no_integerLiteral hxy fun v hv => ?_
  have hmem : '-' ∈ ('-' :: y).rdropWhile isSpace := mem_rdropWhile_isSpace List.mem_cons_self rfl
  exact absurd (isDigit_of_integerLiteral_trim_append hc hs hmem hv) (by decide)

/-- A `-` between whitespace. -/
theorem parseChars_of_minus_alone {y : List Char} (hx : ∀ c ∈ x, isSpace c = true) (hy : ∀ c ∈ y, isSpace c = true) :
    parseChars W (x ++ '-' :: y) = [] := by
  have htrim : trim (x ++ ['-'] ++ y) = ['-'] := trim_append hx (List.forall_mem_singleton.2 rfl) hy
  refine parseChars_of_no_integerLiteral ?_ fun v hv => ?_
  · simp [comma_notMem_of_isSpace hx, comma_notMem_of_isSpace hy]
  · rw [List.append_cons, htrim] at hv
    nomatch hv

end

/-- Settles O55: a literal between whitespace, a token that is none, and the kinds of token that are none. -/
theorem parseReadsDecimalLiterals : Obligations.ParseReadsDecimalLiterals :=
  ⟨fun _ _ _ zeros n hb ha =>
      ⟨parseChars_literal (integerLiteral_numeral zeros n) hb ha, parseChars_literal (integerLiteral_minus_numeral zeros n) hb ha⟩,
    fun _ _ => parseChars_of_no_form, fun _ _ => parseChars_of_isSpace, fun _ _ _ => parseChars_of_mem_other,
    fun _ _ _ _ _ _ => parseChars_of_space_inside, fun _ _ _ _ => parseChars_of_minus_inside,
    fun _ _ _ => parseChars_of_minus_alone⟩

end Sys2Proof.Machine

/-! Faults and several Machines (spec/60_exceptions.md): a RUN makes the checks of the priority table in its order (R224), fault entry
(R226, R227), and a command to one Machine leaves every other alone (R236). -/

namespace Sys2Proof.Machine

/-! ## A result that follows a list of checks -/

/-- The result `r` goes on from `s` as the checks say (R224): the first one that fails raises its fault, and where all pass there is a
next state that is not Faulted. -/
inductive FollowsChecks (s : State) : List Check → Result → Prop
  | completes {t : State} (ht : t.state ≠ .faulted) : FollowsChecks s [] (.next t)
  | fails {c : Check} {cs : List Check} (hc : c.passes = false) : FollowsChecks s (c :: cs) (.next (s.faultedWith c.code c.info))
  | passes {c : Check} {cs : List Check} {r : Result} (hc : c.passes = true) (h : FollowsChecks s cs r) : FollowsChecks s (c :: cs) r

namespace FollowsChecks

variable {s : State} {c : Check} {cs : List Check} {r : Result}

/-- A fault that `firstFailing` finds is the one raised. -/
theorem eq_faultedWith {code : FaultCode} {info : Int} (h : FollowsChecks s cs r) (hf : firstFailing cs = some (code, info)) :
    r = .next (s.faultedWith code info) := by
  induction h with
  | completes ht => nomatch hf
  | fails hc =>
    obtain ⟨rfl, rfl⟩ : _ ∧ _ := by simpa [firstFailing, hc] using hf
    rfl
  | passes hc _ ih => exact ih (by simpa [firstFailing, hc] using hf)

/-- Where `firstFailing` finds none, nothing is raised. -/
theorem not_faulted (h : FollowsChecks s cs r) (hf : firstFailing cs = none) : ∃ t, r = .next t ∧ t.state ≠ .faulted := by
  induction h with
  | completes ht => exact ⟨_, rfl, ht⟩
  | fails hc => simp [firstFailing, hc] at hf
  | passes hc _ ih => exact ih (by simpa [firstFailing, hc] using hf)

/-- One row of the table: what happens where its check fails, and where it passes. -/
theorem cons (hfail : c.passes = false → r = .next (s.faultedWith c.code c.info)) (hpass : c.passes = true → FollowsChecks s cs r) :
    FollowsChecks s (c :: cs) r := by
  cases hc : c.passes with
  | false =>
    rw [hfail hc]
    exact .fails hc
  | true => exact .passes hc (hpass hc)

/-- Row 10: the exact result of ADD and MUL fits, or is raised. -/
theorem storeExact (hs : s.state ≠ .faulted) (W : Width) (w v d : Int) :
    FollowsChecks s [⟨W.fits v, .arithmeticOverflow, w⟩] (storeExact W w v d s) := by
  refine cons (fun hv => ?_) (fun hv => ?_)
  · rw [storeExact_of_not_fits hv, State.faultEntry_eq_faultedWith hs]
  · rw [storeExact_of_fits hv]
    exact .completes nofun

/-! The parameters of a running Machine, in their order: rows 4 to 9. -/

section

variable {w : Nat} {m m1 m2 : Mode} (hs : s.state ≠ .faulted)
include hs

/-- One row: an answer that is given where the address `a` is in range. -/
theorem orRaise_of_bounds {a v : Int} {x : Except Int Int} {f : Int → Result} (hx : x = if s.inRange a then .ok v else .error a)
    (h : FollowsChecks s cs (f v)) : FollowsChecks s (boundsCheck s a :: cs) (orRaise s x f) := by
  refine cons (fun ha => ?_) (fun ha => ?_)
  · exact orRaise_of_error hs (hx.trans (if_neg (Bool.eq_false_iff.1 ha))) f
  · rwa [orRaise_of_ok (hx.trans (if_pos ha))]

/-- Two rows for a source: its word, and in Position mode the cell that word names. -/
theorem orRaise_resolveSrc {k : Nat} {f : Int → Result} (hm : digit w (k + 1) = m.digit)
    (h : FollowsChecks s cs (f (sourceValue s w k))) :
    FollowsChecks s (parameterChecks s k (digit w (k + 1) == 0) ++ cs) (orRaise s (s.resolveSrc k m) f) := by
  obtain ⟨hword, hvalue⟩ := sourceParameterValue s k m
  rw [sourceValue, hm] at h
  rw [hm]
  refine cons (fun hp => orRaise_of_error hs (hword hp) f) (fun hp => ?_)
  obtain ⟨himm, hpos⟩ := hvalue hp
  cases m with
  | immediate => exact orRaise_of_ok himm f ▸ h
  | position => exact orRaise_of_bounds hs hpos h

/-- Two rows for a destination: its word, and the cell that word names. -/
theorem orRaise_resolveDst {k : Nat} {f : Int → Result} (h : ∀ d, FollowsChecks s cs (f d)) :
    FollowsChecks s (parameterChecks s k true ++ cs) (orRaise s (s.resolveDst k) f) := by
  obtain ⟨hword, hvalue⟩ := destinationParameterAddress s k
  exact cons (fun hp => orRaise_of_error hs (hword hp) f) fun hp => orRaise_of_bounds hs (hvalue hp) (h _)

theorem withSSD {f : Int → Int → Int → Result} (h1 : digit w 2 = m1.digit) (h2 : digit w 3 = m2.digit)
    (h : ∀ d, FollowsChecks s cs (f (sourceValue s w 1) (sourceValue s w 2) d)) :
    FollowsChecks s (Format.ssd.parameterChecks s w ++ cs) (withSSD m1 m2 s f) := by
  simp only [Format.parameterChecks, List.append_assoc]
  exact orRaise_resolveSrc hs h1 (orRaise_resolveSrc hs h2 (orRaise_resolveDst hs h))

theorem withSS {f : Int → Int → Result} (h1 : digit w 2 = m1.digit) (h2 : digit w 3 = m2.digit)
    (h : FollowsChecks s cs (f (sourceValue s w 1) (sourceValue s w 2))) :
    FollowsChecks s (Format.ss.parameterChecks s w ++ cs) (withSS m1 m2 s f) := by
  simp only [Format.parameterChecks, List.append_assoc]
  exact orRaise_resolveSrc hs h1 (orRaise_resolveSrc hs h2 h)

/-- Rows 4 to 10: a decoded instruction makes the checks of its format, and then, ADD and MUL alone, the one of the result. -/
theorem exec {i : Instr} {f : Format} (hi : decodeNat w = .ok i) (hf : formatOf (w % 100) = some f) :
    FollowsChecks s (f.parameterChecks s w ++ resultChecks s w) (exec i s) := by
  have hw : encode i = w := encode_of_decodeNat hi
  unfold decodeNat at hi
  split at hi
  case h_1 hop | h_2 hop =>
    obtain ⟨m1, m2, h1, h2, -, rfl⟩ := decodeSSD_eq_ok.1 hi
    obtain rfl : Format.ssd = f := by simpa [hop, formatOf] using hf
    simp only [resultChecks, hop, ← hw]
    exact withSSD hs h1 h2 fun d => storeExact hs _ _ _ d
  case h_3 hop =>
    obtain ⟨-, -, -, rfl⟩ := decodeD_eq_ok.1 hi
    obtain rfl : Format.d = f := by simpa [hop, formatOf] using hf
    simp only [resultChecks, hop]
    exact orRaise_resolveDst hs fun d => .completes (readInto_state_ne_faulted d s)
  case h_4 hop =>
    obtain ⟨m1, h1, -, -, -, rfl⟩ := decodeS_eq_ok.1 hi
    obtain rfl : Format.s = f := by simpa [hop, formatOf] using hf
    simp only [resultChecks, hop]
    exact orRaise_resolveSrc hs h1 (.completes nofun)
  case h_5 hop | h_6 hop =>
    obtain ⟨m1, m2, h1, h2, -, -, rfl⟩ := decodeSS_eq_ok.1 hi
    obtain rfl : Format.ss = f := by simpa [hop, formatOf] using hf
    simp only [resultChecks, hop]
    exact withSS hs h1 h2 (.completes nofun)
  case h_7 hop | h_8 hop =>
    obtain ⟨m1, m2, h1, h2, -, rfl⟩ := decodeSSD_eq_ok.1 hi
    obtain rfl : Format.ssd = f := by simpa [hop, formatOf] using hf
    simp only [resultChecks, hop]
    exact withSSD hs h1 h2 fun d => .completes nofun
  case h_9 hop =>
    obtain ⟨-, -, -, -, rfl⟩ := decodeZ_eq_ok.1 hi
    obtain rfl : Format.z = f := by simpa [hop, formatOf] using hf
    simp only [resultChecks, hop]
    exact .completes nofun
  case h_10 => nomatch hi

end

/-! One RUN of a running Machine. -/

variable (hrun : s.state.runs = true)
include hrun

/-- Rows 3 to 10, once a word with a listed opcode is fetched. -/
theorem step_of_format {w : Nat} {f : Format} (hpc : s.inRange s.cursor = true) (hw : s.cell s.cursor = w)
    (hf : formatOf (w % 100) = some f) : FollowsChecks s (formatChecks s w f) (step s) := by
  have hdec : decode (s.cell s.cursor) = decodeNat w := by rw [hw, decode_natCast]
  refine cons (fun hd => ?_) (fun hd => ?_)
  · have hi := hdec.trans (decodeNat_eq_error.2 (.inr ⟨rfl, f, hf, hd⟩))
    exact hw ▸ step_of_decode_error hrun hpc hi
  · cases hi : decodeNat w with
    | error r =>
      obtain ⟨-, hn⟩ | ⟨-, g, hg, hbad⟩ := decodeNat_eq_error.1 hi
      · nomatch hf.symm.trans hn
      · obtain rfl : f = g := Option.some.inj (hf.symm.trans hg)
        nomatch hd.symm.trans hbad
    | ok i =>
      rw [step_of_fetchDecode_ok hrun (State.fetchDecode_eq_ok.2 ⟨hpc, hdec.trans hi⟩)]
      exact exec (ne_faulted_of_runs hrun) hi hf

/-- Rows 2 to 10, once a word is fetched. -/
theorem step_of_inRange (hpc : s.inRange s.cursor = true) : FollowsChecks s (wordChecks s (s.cell s.cursor)) (step s) := by
  rcases Int.lt_or_le (s.cell s.cursor) 0 with hneg | hpos
  · rw [wordChecks, if_pos hneg]
    exact cons (fun _ => step_of_decode_error hrun hpc (decode_of_neg hneg)) nofun
  · obtain ⟨w, hw⟩ := Int.eq_ofNat_of_zero_le hpos
    rw [hw, wordChecks, if_neg (Int.not_lt.2 (Int.natCast_nonneg w)), Int.toNat_natCast]
    cases hf : formatOf (w % 100) with
    | none =>
      have hi : decode (s.cell s.cursor) = .error .illegalOpcode := by
        rw [hw, decode_natCast, decodeNat_eq_error]
        exact .inl ⟨rfl, hf⟩
      exact cons (fun _ => hw ▸ step_of_decode_error hrun hpc hi) nofun
    | some f => exact step_of_format hrun hpc hw hf

/-- R224: a RUN makes the checks of the table. -/
theorem step : FollowsChecks s (boundsCheck s s.cursor :: wordChecks s (s.cell s.cursor)) (step s) :=
  cons (fun hpc => step_of_fetchDecode_error hrun (State.fetchDecode_eq_error.2 (.inl ⟨hpc, rfl, rfl⟩))) (step_of_inRange hrun)

end FollowsChecks

/-- Row 11: an instruction leaves Waiting exactly when it is a READ and there is no input (R119, R150). -/
theorem stateAfter_eq_waiting_iff {i : Instr} {input : List Int} : stateAfter i input = .waiting ↔ i.opcode = 3 ∧ input = [] := by
  cases i <;> simp [stateAfter, Instr.opcode]

/-- R119: what a RUN that does not fault leaves in `state` and the fault registers. -/
theorem registers_of_step {s t : State} (hrun : s.state.runs = true) (h : step s = .next t) (ht : t.state ≠ .faulted) :
    t.faultCode = s.faultCode ∧ t.faultInfo = s.faultInfo ∧ (t.state = .waiting ↔ s.cell s.cursor % 100 = 3 ∧ s.input = []) := by
  obtain ⟨i, -, hi, hc⟩ := completes_of_step hrun h ht
  obtain ⟨hcode, hinfo⟩ := hc.fault_eq
  refine ⟨hcode, hinfo, ?_⟩
  rw [hc.state_eq, stateAfter_eq_waiting_iff, ← opcode_of_decode hi]
  norm_cast

/-- Settles O20: the RUN follows the checks of the table, and where none fails it has completed an instruction. -/
theorem runFaultsByThePriorityTable : Obligations.RunFaultsByThePriorityTable := by
  intro s hs
  have hrun := runs_of_ready_or_waiting hs
  have hchecks := FollowsChecks.step hrun
  split
  · exact hchecks.eq_faultedWith ‹_›
  · obtain ⟨t, h, ht⟩ := hchecks.not_faulted ‹_›
    exact ⟨t, h, ht, registers_of_step hrun h ht⟩

/-! ## Several Machines -/

/-- A command to a system answers where the one to its Machine does, and puts the state after it in that Machine's place. -/
theorem systemCommand_eq_next {W : Width} {i : Nat} {c : Command} {sys sys' : System} {r : Response} :
    systemCommand W i c sys = .next (sys', r) ↔
      ∃ m t, sys[i]? = some m ∧ slotCommand W c m = .next (t, r) ∧ sys.set i (some t) = sys' := by
  unfold systemCommand
  cases hm : sys[i]? with
  | none => simp
  | some m =>
    cases ha : slotCommand W c m with
    | next p =>
      obtain ⟨t, r'⟩ := p
      simp [ha, and_comm]
    | fault x => nomatch x
    | refused x => simp [ha]

/-- Settles O50: the answer is found from Machine `i` alone and written to its place alone. -/
theorem machinesDoNotInterfere : Obligations.MachinesDoNotInterfere := by
  intro W i c sys sys' r h
  obtain ⟨m, t, hm, ha, rfl⟩ := systemCommand_eq_next.1 h
  refine ⟨List.length_set, fun j hj => List.getElem?_set_ne hj.symm, fun other ho => ?_⟩
  refine ⟨_, systemCommand_eq_next.2 ⟨m, t, ho.trans hm, ha, rfl⟩, ?_⟩
  rw [List.getElem?_set_self', List.getElem?_set_self', ho]

/-- Settles O22: the two laws of fault entry. -/
theorem faultEntryWritesTheFaultRegisters : Obligations.FaultEntryWritesTheFaultRegisters := fun _ code info =>
  ⟨fun h => State.faultEntry_of_not_faulted h code info, fun h => State.faultEntry_of_faulted h code info⟩

end Sys2Proof.Machine
